-- ==== Sys2Proof/Word.lean ====
section
/-! DEFINITION. The one width of the CORE: the byte (R8). -/

namespace Sys2Proof

/-- R8: every general register, memory cell, operand-stack entry, opcode and operand byte is
8 bits wide and unsigned. -/
abbrev Byte := BitVec 8

end Sys2Proof
end

