-- ==== Sys2Proof/Config.lean ====
section
/-! DEFINITION. What one CORE instance fixes at construction (R7, R34), and the constants the
spec fixes for every instance. -/

namespace Sys2Proof

/-- R7: the five configuration parameters, natural numbers, immutable for the lifetime of one
CPU instance (R34). A machine state carries its own configuration, so a statement about every
state is a statement about every configuration. -/
structure Config where
  /-- `REG_COUNT`: number of general registers. -/
  regCount : Nat
  /-- `MEM_SIZE`: number of memory cells. -/
  memSize : Nat
  /-- `STACK_CAP`: operand-stack depth limit. -/
  stackCap : Nat
  /-- `CALL_STACK_CAP`: call-stack depth limit. -/
  callStackCap : Nat
  /-- `ENTRY`: the initial pc. -/
  entry : Nat
  deriving DecidableEq, Repr

/-- The configuration of `State.reset`. DESIGN CHOICE (log entry 1): R7 fixes no values; these are
those of K0, the configuration the spec's own test vectors use (95_test_vectors.md). unsafe. -/
def Config.k0 : Config :=
  { regCount := 4, memSize := 256, stackCap := 2, callStackCap := 2, entry := 0 }

/-- R41 (decision D3): what a cell the image does not reach holds at construction, and so what an
address that the memory does not list reads as. unsafe (log entry 2). -/
def Config.memFill : Byte := 0x00

/-- R70: an instruction is 1, 2 or 3 bytes long. -/
def Config.maxInstrLength : Nat := 3

end Sys2Proof
end

