-- ==== Sys2Proof/Machine/State.lean ====
section
/-! DEFINITION. The state of one CORE (R20), its error kinds and run states (R32, R190), the reasons
a step can stop, and the state right after construction (R40, R41). -/

namespace Sys2Proof.Machine

/-- R190: the eight engine error kinds. An instruction that raises one ends the run in
`Errored(kind)`, which is a NEXT state (R194), not a `Fault`. -/
inductive ErrKind where
  /-- a register operand, or the implicit `r1` of LdIdx and StIdx, is `>= REG_COUNT` -/
  | invalidRegister
  /-- a fetch address, operand-fetch address, address operand or effective address is `>= MEM_SIZE` -/
  | invalidAddress
  /-- Push at depth `STACK_CAP` -/
  | stackOverflow
  /-- Pop at depth 0 -/
  | stackUnderflow
  /-- Call at depth `CALL_STACK_CAP` -/
  | callStackOverflow
  /-- Ret at depth 0 -/
  | callStackUnderflow
  /-- Div whose divisor register holds 0 -/
  | divisionByZero
  /-- executing one of the 235 bytes outside the opcode map; carries the byte -/
  | unknownOpcode (op : Byte)
  deriving DecidableEq, Repr

/-- R32: the run state; `halted` and `errored` are terminal. -/
inductive RunState where
  | running
  | halted
  | errored (kind : ErrKind)
  deriving DecidableEq, Repr

/-- R50: memory as (address, byte) pairs, addresses strictly rising, no entry equal to what an
unlisted address reads as (`Config.memFill`, R41). -/
abbrev Memory := List Host.Cell

/-- R20: the state aggregate, with the configuration it was constructed with (R34) and the output
channel's trace (R204). -/
structure State where
  /-- R34: the configuration, which no instruction reads as data or writes. -/
  cfg : Config
  /-- R32: the run state. -/
  run : RunState
  /-- R25: the program counter, 0..`MEM_SIZE`. -/
  pc : Nat
  /-- R21: the general registers r0, r1, ... -/
  x : List Byte
  /-- R50: memory, program and data. -/
  mem : Memory
  /-- R30: the operand stack, the last element the top (R13). -/
  os : List Byte
  /-- R31: the call stack of return addresses, the last element the top (R13). -/
  cs : List Nat
  /-- R27: the Zero flag. -/
  z : Bool
  /-- R27: the Greater flag. -/
  g : Bool
  /-- R204: the bytes emitted so far, in order. -/
  out : List Byte
  deriving DecidableEq, Repr

/-- Why `step` takes no step. -/
inductive Fault where
  /-- R86 (and S7 of 93_implementation_defined.md, "stuck"): the CORE is Halted or Errored and has
  no step; nothing changes. Raised by `step` alone, with the terminal run state the host's step
  request returns. safe. -/
  | terminal (run : RunState)
  deriving DecidableEq, Repr

/-- Why an instruction has no meaning in the model. -/
inductive Refusal where
  /-- The instruction's arm of `exec` is not written yet. Raised by no arm of the present model.
  safe. -/
  | notModelled (mnemonic : String)
  deriving DecidableEq, Repr

/-- R40, R41: the state right after construction with configuration `K0` and the empty image
(DESIGN CHOICE, log entry 1): Running, `pc = ENTRY`, every register zero, both stacks empty, both flags
false, nothing emitted, every cell 0x00. -/
def State.reset : State :=
  { cfg := Config.k0
    run := .running
    pc := Config.k0.entry
    x := List.replicate Config.k0.regCount 0x00
    mem := []
    os := []
    cs := []
    z := false
    g := false
    out := [] }

end Sys2Proof.Machine
end

