-- ==== Sys2Proof/Machine/Ops.lean ====
section
/-! DEFINITION. The named operations over memory, registers, stacks, flags and the output channel,
raising an error (R14, R194), and settling an instruction's outcome (R84, R85). -/

namespace Sys2Proof.Machine

/-! Memory (R50 to R53). -/

/-- R51: the byte at an address; an unlisted address reads as the fill (R41). -/
def Memory.read : Memory → Nat → Byte
  | [], _ => Config.memFill
  | (b, v) :: m, a => if b = a then v else Memory.read m a

/-- The memory with no entry for an address. -/
def Memory.erase (m : Memory) (a : Nat) : Memory := m.filter (fun c => c.1 != a)

/-- The memory with an entry put before the first higher address. -/
def Memory.insert : Memory → Nat → Byte → Memory
  | [], a, v => [(a, v)]
  | (b, w) :: m, a, v =>
    if a < b then (a, v) :: (b, w) :: m else (b, w) :: Memory.insert m a v

/-- R52: the memory with one byte written, kept in canonical form. -/
def Memory.write (m : Memory) (a : Nat) (v : Byte) : Memory :=
  if v = Config.memFill then Memory.erase m a else Memory.insert (Memory.erase m a) a v

/-- The canonical form: addresses strictly rising, no entry equal to the fill. -/
abbrev Memory.wf (m : Memory) : Prop :=
  m.Pairwise (fun c d => c.1 < d.1) ∧ ∀ c ∈ m, c.2 ≠ Config.memFill

/-- The memory with bytes written at consecutive addresses, each below the bound. -/
def Memory.writeBytes (m : Memory) (bound a : Nat) : List Byte → Memory
  | [] => m
  | v :: vs =>
    Memory.writeBytes (if a < bound then Memory.write m a v else m) bound (a + 1) vs

/-! Reads and writes of the state, one accessor and one update for each piece (R13). -/

/-- R13: `x[i]`. An index at or past `REG_COUNT` is never read: validation comes first (R82). -/
def State.reg (s : State) (i : Nat) : Byte := s.x.getD i 0

/-- R13: `x[i] <- v`. No register is hardwired (R21). -/
def State.setReg (s : State) (i : Nat) (v : Byte) : State := { s with x := s.x.set i v }

/-- R13, R51: `M[a]`. -/
def State.byteAt (s : State) (a : Nat) : Byte := s.mem.read a

/-- R52: `M[a] <- v`. -/
def State.setByte (s : State) (a : Nat) (v : Byte) : State := { s with mem := s.mem.write a v }

/-- R13: `pc <- target`. -/
def State.setPc (s : State) (pc : Nat) : State := { s with pc := pc }

/-- R85: both flags are written together. -/
def State.setFlags (s : State) (z g : Bool) : State := { s with z := z, g := g }

/-- The operand stack replaced. -/
def State.setOs (s : State) (os : List Byte) : State := { s with os := os }

/-- The call stack replaced. -/
def State.setCs (s : State) (cs : List Nat) : State := { s with cs := cs }

/-- R204: `emit(v)`, one value appended to the output trace. -/
def State.emit (s : State) (v : Byte) : State := { s with out := s.out ++ [v] }

/-- The run state replaced. -/
def State.setRun (s : State) (r : RunState) : State := { s with run := r }

/-! Stacks (R29 to R31): a stack is its list of live entries, the last element the top. -/

/-- R140, R142: push at the top, or `overflow` if the stack already holds `cap` entries. -/
def pushStack {α : Type} (overflow : ErrKind) (cap : Nat) (l : List α) (v : α) :
    Except ErrKind (List α) :=
  if cap ≤ l.length then .error overflow else .ok (l ++ [v])

/-- R141, R143: the top and the stack without it, or `underflow` if the stack is empty. -/
def popStack {α : Type} (underflow : ErrKind) (l : List α) : Except ErrKind (α × List α) :=
  match l.getLast? with
  | none => .error underflow
  | some v => .ok (v, l.dropLast)

/-! Errors (R14, R84, R194): taking one is the CORE's whole trap entry. -/

/-- R14, R194: `run <- Errored(kind)`, and nothing else changes; `pc` keeps the address of the
failing instruction's opcode byte, and no control is transferred. -/
def State.raise (s : State) (k : ErrKind) : State := s.setRun (.errored k)

/-- R84, R85: an instruction either commits the state it computed or raises, from the state before
it, the first error it met. -/
def settle (s : State) : Except ErrKind State → Host.Outcome State Fault Refusal
  | .ok t => .next t
  | .error k => .next (s.raise k)

end Sys2Proof.Machine
end

