-- ==== Sys2Proof/Machine/Alu.lean ====
section
/-! DEFINITION. The ALU (R160, R161): unsigned 8-bit operands and results, wrap-around modulo 256,
no overflow recorded. -/

namespace Sys2Proof.Machine

/-- R162: addition modulo 256. -/
def aluAdd (a b : Byte) : Byte := a + b

/-- R163: subtraction modulo 256. -/
def aluSub (a b : Byte) : Byte := a - b

/-- R164: the low byte of the 16-bit product. -/
def aluMul (a b : Byte) : Byte := a * b

/-- R161, R165: the quotient rounded down, or `DivisionByZero` where the divisor is 0. -/
def aluDiv (a b : Byte) : Except ErrKind Byte :=
  if b = 0 then .error .divisionByZero else .ok (a / b)

end Sys2Proof.Machine
end

