-- ==== Sys2Proof/Syntax.lean ====
section
/-! DEFINITION. The 21 instructions of the opcode map R74, each carrying exactly its concrete
operand bytes in the table's order (R71, R80). -/

namespace Sys2Proof

/-- R80: a decoded instruction, an opcode with its operand bytes. A register operand is a register
index, an immediate a byte value, an address operand (`addr`, `base`) an absolute address (R72). -/
inductive Instr where
  | inc (r : Byte)
  | dec (r : Byte)
  | out (r : Byte)
  | mov (r imm : Byte)
  | push (r : Byte)
  | pop (r : Byte)
  | call (addr : Byte)
  | ret
  | load (r addr : Byte)
  | store (r addr : Byte)
  | ldIdx (r base : Byte)
  | stIdx (r base : Byte)
  | add (dst src : Byte)
  | sub (dst src : Byte)
  | mul (dst src : Byte)
  | div (dst src : Byte)
  | jmp (addr : Byte)
  | jeq (addr : Byte)
  | jgt (addr : Byte)
  | cmp (reg1 reg2 : Byte)
  | halt
  deriving DecidableEq, Repr

end Sys2Proof
end

