-- ==== Sys2Proof/Decode.lean ====
section
/-! DEFINITION. The Opcode Table (R74, R75), the decoder from bytes to an instruction, the encoder
(R71), and the host's view of a table row's bits. -/

namespace Sys2Proof

/-- The 21 mnemonics of R74: the identity of an instruction without its operands. -/
inductive Opcode where
  | inc | dec | out | mov | push | pop | call | ret | load | store | ldIdx | stIdx
  | add | sub | mul | div | jmp | jeq | jgt | cmp | halt
  deriving DecidableEq, Repr

/-- R18: the operand kinds. -/
inductive OperandKind where
  /-- a register index -/
  | reg
  /-- an immediate byte -/
  | imm
  /-- a memory address: the source's `addr` and `base` roles -/
  | addr
  deriving DecidableEq, Repr

/-- One row of the opcode map R74. -/
structure OpcodeRow where
  byte : Byte
  name : List Char
  kinds : List OperandKind
  deriving DecidableEq, Repr

/-- R74: the complete opcode map: opcode byte, mnemonic, operand kinds in operand order. -/
def Opcode.row : Opcode → OpcodeRow
  | .inc   => ⟨0x01, ['I', 'n', 'c'], [.reg]⟩
  | .dec   => ⟨0x02, ['D', 'e', 'c'], [.reg]⟩
  | .out   => ⟨0x03, ['O', 'u', 't'], [.reg]⟩
  | .mov   => ⟨0x04, ['M', 'o', 'v'], [.reg, .imm]⟩
  | .push  => ⟨0x10, ['P', 'u', 's', 'h'], [.reg]⟩
  | .pop   => ⟨0x11, ['P', 'o', 'p'], [.reg]⟩
  | .call  => ⟨0x12, ['C', 'a', 'l', 'l'], [.addr]⟩
  | .ret   => ⟨0x13, ['R', 'e', 't'], []⟩
  | .load  => ⟨0x20, ['L', 'o', 'a', 'd'], [.reg, .addr]⟩
  | .store => ⟨0x21, ['S', 't', 'o', 'r', 'e'], [.reg, .addr]⟩
  | .ldIdx => ⟨0x22, ['L', 'd', 'I', 'd', 'x'], [.reg, .addr]⟩
  | .stIdx => ⟨0x23, ['S', 't', 'I', 'd', 'x'], [.reg, .addr]⟩
  | .add   => ⟨0x30, ['A', 'd', 'd'], [.reg, .reg]⟩
  | .sub   => ⟨0x31, ['S', 'u', 'b'], [.reg, .reg]⟩
  | .mul   => ⟨0x32, ['M', 'u', 'l'], [.reg, .reg]⟩
  | .div   => ⟨0x33, ['D', 'i', 'v'], [.reg, .reg]⟩
  | .jmp   => ⟨0x40, ['J', 'm', 'p'], [.addr]⟩
  | .jeq   => ⟨0x41, ['J', 'e', 'q'], [.addr]⟩
  | .jgt   => ⟨0x42, ['J', 'g', 't'], [.addr]⟩
  | .cmp   => ⟨0x43, ['C', 'm', 'p'], [.reg, .reg]⟩
  | .halt  => ⟨0xFF, ['H', 'a', 'l', 't'], []⟩

/-- The rows of R74 in the table's order. -/
def Opcode.all : List Opcode :=
  [.inc, .dec, .out, .mov, .push, .pop, .call, .ret, .load, .store, .ldIdx, .stIdx,
   .add, .sub, .mul, .div, .jmp, .jeq, .jgt, .cmp, .halt]

/-- R74: the opcode byte. -/
def Opcode.byte (m : Opcode) : Byte := m.row.byte

/-- R74: the operand kinds, in operand order. -/
def Opcode.kinds (m : Opcode) : List OperandKind := m.row.kinds

/-- R17: the number of operand bytes that follow the opcode byte. -/
def Opcode.arity (m : Opcode) : Nat := m.kinds.length

/-- R17, R75: the decoded identity of an opcode byte. -/
inductive Tag where
  /-- a byte of the table -/
  | known (m : Opcode)
  /-- `Unknown(byte)`: any of the other 235 bytes -/
  | unknown (b : Byte)
  deriving DecidableEq, Repr

/-- R75: the decoder, a total lookup of the byte in the table. -/
def decodeByte (b : Byte) : Tag :=
  match Opcode.all.find? (fun m => m.byte == b) with
  | some m => .known m
  | none => .unknown b

/-- R75: the arity a tag carries; `Unknown(byte)` has arity 0. -/
def Tag.arity : Tag → Nat
  | .known m => m.arity
  | .unknown _ => 0

/-- R80, R71: the instruction with operand bytes `b1 = operand 1`, `b2 = operand 2`, of which it
takes exactly `arity`. -/
def Opcode.build (m : Opcode) (operand : Nat → Byte) : Instr :=
  match m with
  | .inc => .inc (operand 1)
  | .dec => .dec (operand 1)
  | .out => .out (operand 1)
  | .mov => .mov (operand 1) (operand 2)
  | .push => .push (operand 1)
  | .pop => .pop (operand 1)
  | .call => .call (operand 1)
  | .ret => .ret
  | .load => .load (operand 1) (operand 2)
  | .store => .store (operand 1) (operand 2)
  | .ldIdx => .ldIdx (operand 1) (operand 2)
  | .stIdx => .stIdx (operand 1) (operand 2)
  | .add => .add (operand 1) (operand 2)
  | .sub => .sub (operand 1) (operand 2)
  | .mul => .mul (operand 1) (operand 2)
  | .div => .div (operand 1) (operand 2)
  | .jmp => .jmp (operand 1)
  | .jeq => .jeq (operand 1)
  | .jgt => .jgt (operand 1)
  | .cmp => .cmp (operand 1) (operand 2)
  | .halt => .halt

/-- Why a byte string holds no instruction at its front. -/
inductive DecodeReject where
  /-- fewer bytes than the opcode byte's arity calls for (R77 makes it `InvalidAddress`) -/
  | truncated
  /-- `Unknown(byte)`: the byte is not in the table (R75; R181 makes it `UnknownOpcode`) -/
  | unknownOpcode (b : Byte)
  deriving DecidableEq, Repr

/-- R70, R75, R77: the instruction at the front of a byte string, and the bytes after it. Length is
decided by the opcode byte alone. -/
def decode : List Byte → Except DecodeReject (Instr × List Byte)
  | [] => .error .truncated
  | op :: rest =>
    match decodeByte op with
    | .unknown b => .error (.unknownOpcode b)
    | .known m =>
      if rest.length < m.arity then .error .truncated
      else .ok (m.build (fun k => rest.getD (k - 1) 0), rest.drop m.arity)

/-- R74: the mnemonic of an instruction. -/
def Instr.opcode : Instr → Opcode
  | .inc _ => .inc
  | .dec _ => .dec
  | .out _ => .out
  | .mov _ _ => .mov
  | .push _ => .push
  | .pop _ => .pop
  | .call _ => .call
  | .ret => .ret
  | .load _ _ => .load
  | .store _ _ => .store
  | .ldIdx _ _ => .ldIdx
  | .stIdx _ _ => .stIdx
  | .add _ _ => .add
  | .sub _ _ => .sub
  | .mul _ _ => .mul
  | .div _ _ => .div
  | .jmp _ => .jmp
  | .jeq _ => .jeq
  | .jgt _ => .jgt
  | .cmp _ _ => .cmp
  | .halt => .halt

/-- R71: the operand bytes in the order the table specifies. -/
def Instr.operandBytes : Instr → List Byte
  | .inc r | .dec r | .out r | .push r | .pop r => [r]
  | .call a | .jmp a | .jeq a | .jgt a => [a]
  | .ret | .halt => []
  | .mov r i => [r, i]
  | .load r a | .store r a | .ldIdx r a | .stIdx r a => [r, a]
  | .add d s | .sub d s | .mul d s | .div d s | .cmp d s => [d, s]

/-- R71, R82: the operands with their kinds, in operand order. -/
def Instr.operands (i : Instr) : List (OperandKind × Byte) :=
  i.opcode.kinds.zip i.operandBytes

/-- R70: the length of an instruction in bytes. -/
def Instr.length (i : Instr) : Nat := 1 + i.opcode.arity

/-- R71: the bytes of an instruction in increasing address order. -/
def encode (i : Instr) : List Byte := i.opcode.byte :: i.operandBytes

/-- The bytes of an instruction whose table bits are `w` (bit 0 the least significant bit of the
first byte), every bit above `nbits` zero, up to the longest instruction. -/
def tableBytes (nbits w : Nat) : List Byte :=
  (List.range Config.maxInstrLength).map
    (fun k => BitVec.ofNat 8 (w % 2 ^ nbits / 2 ^ (8 * k)))

/-- The instruction the decoder reads from a table row's bits. -/
def decodeTableWord (nbits w : Nat) : Option Instr :=
  match decode (tableBytes nbits w) with
  | .ok (i, _) => some i
  | .error _ => none

end Sys2Proof
end

