-- ==== Sys2Proof/Machine/Operands.lean ====
section
/-! DEFINITION. The operand forms: the address past an instruction (R15), validation (R82, R83),
the indexed effective address (R152, R153), and the shape every instruction's execution has. -/

namespace Sys2Proof.Machine

/-- R15, R81: `npc`, the address just past the instruction at `pc`. -/
def npcOf (i : Instr) (s : State) : Nat := s.pc + 1 + i.opcode.arity

/-- R82: the register operands, in operand order. -/
def regOperands (i : Instr) : List Byte :=
  (i.operands.filter (fun o => o.1 == .reg)).map Prod.snd

/-- R82: the address operands, in operand order. -/
def addrOperands (i : Instr) : List Byte :=
  (i.operands.filter (fun o => o.1 == .addr)).map Prod.snd

/-- R23, R82: LdIdx and StIdx reference `r1` implicitly. -/
def usesIndex (i : Instr) : Bool :=
  match i.opcode with
  | .ldIdx => true
  | .stIdx => true
  | _ => false

/-- R82, R83 (3) and (4): the register operands in operand order, then the implicit `r1`, then the
address operands, before any state changes. -/
def validate (c : Config) (i : Instr) : Except ErrKind Unit :=
  if (regOperands i).any (fun r => decide (c.regCount ≤ r.toNat)) then .error .invalidRegister
  else if usesIndex i && decide (c.regCount ≤ 1) then .error .invalidRegister
  else if (addrOperands i).any (fun a => decide (c.memSize ≤ a.toNat)) then .error .invalidAddress
  else .ok ()

/-- R82, R84, R85: stage 4 and stage 5 of an instruction at `pc`: validate, then execute, then
commit the result or raise the error. -/
def perform (i : Instr) (s : State) (execute : Except ErrKind State) :
    Host.Outcome State Fault Refusal :=
  settle s (match validate s.cfg i with
    | .error k => .error k
    | .ok () => execute)

/-- R152, R153: `base + x[1]` as a natural number, never wrapped. -/
def indexedAddress (s : State) (base : Byte) : Nat := base.toNat + (s.reg 1).toNat

/-- R152, R153, R53: the effective address, or `InvalidAddress` where it is `>= MEM_SIZE`. -/
def effectiveAddress (s : State) (base : Byte) : Except ErrKind Nat :=
  if s.cfg.memSize ≤ indexedAddress s base then .error .invalidAddress
  else .ok (indexedAddress s base)

/-- A result in a register, and the natural advance (R81). -/
def finishReg (i : Instr) (s : State) (r v : Byte) : State :=
  (s.setReg r.toNat v).setPc (npcOf i s)

/-- A byte stored to memory, and the natural advance (R81). -/
def finishStore (i : Instr) (s : State) (a : Nat) (v : Byte) : State :=
  (s.setByte a v).setPc (npcOf i s)

end Sys2Proof.Machine
end

