-- ==== Sys2Proof/Machine/Arithmetic.lean ====
section
/-! DEFINITION. The arithmetic instructions Add, Sub, Mul, Div (43_arithmetic.md). Both operands are
read before the result is written (R166), and no flag is touched. -/

namespace Sys2Proof.Machine

/-- R162: `x[dst] <- x[dst] + x[src]` modulo 256. -/
def execAdd (dst src : Byte) (s : State) : Host.Outcome State Fault Refusal :=
  perform (.add dst src) s
    (.ok (finishReg (.add dst src) s dst (aluAdd (s.reg dst.toNat) (s.reg src.toNat))))

/-- R163: `x[dst] <- x[dst] - x[src]` modulo 256. -/
def execSub (dst src : Byte) (s : State) : Host.Outcome State Fault Refusal :=
  perform (.sub dst src) s
    (.ok (finishReg (.sub dst src) s dst (aluSub (s.reg dst.toNat) (s.reg src.toNat))))

/-- R164: `x[dst] <- x[dst] * x[src]`, the low byte. -/
def execMul (dst src : Byte) (s : State) : Host.Outcome State Fault Refusal :=
  perform (.mul dst src) s
    (.ok (finishReg (.mul dst src) s dst (aluMul (s.reg dst.toNat) (s.reg src.toNat))))

/-- R165: `x[dst] <- x[dst] div x[src]`, or `DivisionByZero`. -/
def execDiv (dst src : Byte) (s : State) : Host.Outcome State Fault Refusal :=
  perform (.div dst src) s (do
    let q ← aluDiv (s.reg dst.toNat) (s.reg src.toNat)
    return finishReg (.div dst src) s dst q)

end Sys2Proof.Machine
end

