-- ==== Sys2Proof/Machine/Flags.lean ====
section
/-! DEFINITION. The two flag computations of the CORE, both made by Cmp alone (R27, R173). -/

namespace Sys2Proof.Machine

/-- R173: `Zero = (reg1 == reg2)`. -/
def zeroFlag (a b : Byte) : Bool := a == b

/-- R173: `Greater = (reg1 > reg2)`, unsigned. -/
def greaterFlag (a b : Byte) : Bool := b.ult a

end Sys2Proof.Machine
end

