-- ==== Sys2Proof/Machine/Branch.lean ====
section
/-! DEFINITION. The jump and compare instructions Jmp, Jeq, Jgt, Cmp (44_branch_compare.md). Every
target is validated, taken or not (R82). -/

namespace Sys2Proof.Machine

/-- R170: `pc <- addr`. -/
def execJmp (addr : Byte) (s : State) : Host.Outcome State Fault Refusal :=
  perform (.jmp addr) s (.ok (s.setPc addr.toNat))

/-- R171: `pc <- addr` if `Z`, else the natural advance. -/
def execJeq (addr : Byte) (s : State) : Host.Outcome State Fault Refusal :=
  perform (.jeq addr) s (.ok (s.setPc (if s.z then addr.toNat else npcOf (.jeq addr) s)))

/-- R172: `pc <- addr` if `G`, else the natural advance. -/
def execJgt (addr : Byte) (s : State) : Host.Outcome State Fault Refusal :=
  perform (.jgt addr) s (.ok (s.setPc (if s.g then addr.toNat else npcOf (.jgt addr) s)))

/-- R173: both flags overwritten from an unsigned comparison. -/
def execCmp (reg1 reg2 : Byte) (s : State) : Host.Outcome State Fault Refusal :=
  perform (.cmp reg1 reg2) s
    (.ok ((s.setFlags (zeroFlag (s.reg reg1.toNat) (s.reg reg2.toNat))
        (greaterFlag (s.reg reg1.toNat) (s.reg reg2.toNat))).setPc (npcOf (.cmp reg1 reg2) s)))

end Sys2Proof.Machine
end

