-- ==== Sys2Proof/Machine/MemoryAccess.lean ====
section
/-! DEFINITION. The memory instructions Load, Store, LdIdx, StIdx (42_memory_ops.md): absolute and
indexed addressing, one byte each. -/

namespace Sys2Proof.Machine

/-- R150: `x[r] <- M[addr]`. -/
def execLoad (r addr : Byte) (s : State) : Host.Outcome State Fault Refusal :=
  perform (.load r addr) s (.ok (finishReg (.load r addr) s r (s.byteAt addr.toNat)))

/-- R151: `M[addr] <- x[r]`. -/
def execStore (r addr : Byte) (s : State) : Host.Outcome State Fault Refusal :=
  perform (.store r addr) s (.ok (finishStore (.store r addr) s addr.toNat (s.reg r.toNat)))

/-- R152: `x[r] <- M[base + x[1]]`, or `InvalidAddress` past the end of memory. -/
def execLdIdx (r base : Byte) (s : State) : Host.Outcome State Fault Refusal :=
  perform (.ldIdx r base) s (do
    let ea ← effectiveAddress s base
    return finishReg (.ldIdx r base) s r (s.byteAt ea))

/-- R153: `M[base + x[1]] <- x[r]`, or `InvalidAddress` past the end of memory. -/
def execStIdx (r base : Byte) (s : State) : Host.Outcome State Fault Refusal :=
  perform (.stIdx r base) s (do
    let ea ← effectiveAddress s base
    return finishStore (.stIdx r base) s ea (s.reg r.toNat))

end Sys2Proof.Machine
end

