-- ==== Sys2Proof/Machine/Register.lean ====
section
/-! DEFINITION. The register instructions Inc, Dec, Out, Mov (40_register_ops.md). -/

namespace Sys2Proof.Machine

/-- R130: `x[r] <- (x[r] + 1) mod 256`. -/
def execInc (r : Byte) (s : State) : Host.Outcome State Fault Refusal :=
  perform (.inc r) s (.ok (finishReg (.inc r) s r (aluAdd (s.reg r.toNat) 1)))

/-- R131: `x[r] <- x[r] - 1` modulo 256. -/
def execDec (r : Byte) (s : State) : Host.Outcome State Fault Refusal :=
  perform (.dec r) s (.ok (finishReg (.dec r) s r (aluSub (s.reg r.toNat) 1)))

/-- R132: `emit(x[r])`. -/
def execOut (r : Byte) (s : State) : Host.Outcome State Fault Refusal :=
  perform (.out r) s (.ok ((s.emit (s.reg r.toNat)).setPc (npcOf (.out r) s)))

/-- R133: `x[r] <- imm`; the immediate is never checked. -/
def execMov (r imm : Byte) (s : State) : Host.Outcome State Fault Refusal :=
  perform (.mov r imm) s (.ok (finishReg (.mov r imm) s r imm))

end Sys2Proof.Machine
end

