-- ==== Sys2Proof/Machine/StackCall.lean ====
section
/-! DEFINITION. The stack and call instructions Push, Pop, Call, Ret (41_stack_call.md). -/

namespace Sys2Proof.Machine

/-- R140: push `x[r]`, or `StackOverflow` at depth `STACK_CAP`. -/
def execPush (r : Byte) (s : State) : Host.Outcome State Fault Refusal :=
  perform (.push r) s (do
    let os ← pushStack .stackOverflow s.cfg.stackCap s.os (s.reg r.toNat)
    return (s.setOs os).setPc (npcOf (.push r) s))

/-- R141: pop into `x[r]`, or `StackUnderflow` at depth 0. -/
def execPop (r : Byte) (s : State) : Host.Outcome State Fault Refusal :=
  perform (.pop r) s (do
    let (v, os) ← popStack .stackUnderflow s.os
    return finishReg (.pop r) (s.setOs os) r v)

/-- R142: push `npc` onto the call stack, or `CallStackOverflow` at depth `CALL_STACK_CAP`, and go
to the target. -/
def execCall (addr : Byte) (s : State) : Host.Outcome State Fault Refusal :=
  perform (.call addr) s (do
    let cs ← pushStack .callStackOverflow s.cfg.callStackCap s.cs (npcOf (.call addr) s)
    return (s.setCs cs).setPc addr.toNat)

/-- R143: pop the call stack into `pc`, unchecked, or `CallStackUnderflow` at depth 0. -/
def execRet (s : State) : Host.Outcome State Fault Refusal :=
  perform .ret s (do
    let (target, cs) ← popStack .callStackUnderflow s.cs
    return (s.setCs cs).setPc target)

end Sys2Proof.Machine
end

