-- ==== Sys2Proof/Machine/System.lean ====
section
/-! DEFINITION. Halt and the execution of an opcode byte outside the table (45_system.md). -/

namespace Sys2Proof.Machine

/-- R180: `run <- Halted`, with the natural advance. -/
def execHalt (s : State) : Host.Outcome State Fault Refusal :=
  perform .halt s (.ok ((s.setRun .halted).setPc (npcOf .halt s)))

/-- R181: `Unknown(op)` raises `UnknownOpcode(op)`; it is never a no-op. -/
def execUnknown (op : Byte) (s : State) : Host.Outcome State Fault Refusal :=
  settle s (.error (.unknownOpcode op))

end Sys2Proof.Machine
end

