-- ==== Sys2Proof/Machine/Dispatch.lean ====
section
/-! DEFINITION. One arm per instruction: the stage-4 and stage-5 part of a step whose instruction
stands at `pc` (R82, R85). -/

namespace Sys2Proof.Machine

def exec (i : Instr) (s : State) : Host.Outcome State Fault Refusal :=
  match i with
  | .inc r => Sys2Proof.Machine.execInc r s
  | .dec r => Sys2Proof.Machine.execDec r s
  | .out r => Sys2Proof.Machine.execOut r s
  | .mov r imm => Sys2Proof.Machine.execMov r imm s
  | .push r => Sys2Proof.Machine.execPush r s
  | .pop r => Sys2Proof.Machine.execPop r s
  | .call addr => Sys2Proof.Machine.execCall addr s
  | .ret => Sys2Proof.Machine.execRet s
  | .load r addr => Sys2Proof.Machine.execLoad r addr s
  | .store r addr => Sys2Proof.Machine.execStore r addr s
  | .ldIdx r base => Sys2Proof.Machine.execLdIdx r base s
  | .stIdx r base => Sys2Proof.Machine.execStIdx r base s
  | .add dst src => Sys2Proof.Machine.execAdd dst src s
  | .sub dst src => Sys2Proof.Machine.execSub dst src s
  | .mul dst src => Sys2Proof.Machine.execMul dst src s
  | .div dst src => Sys2Proof.Machine.execDiv dst src s
  | .jmp addr => Sys2Proof.Machine.execJmp addr s
  | .jeq addr => Sys2Proof.Machine.execJeq addr s
  | .jgt addr => Sys2Proof.Machine.execJgt addr s
  | .cmp reg1 reg2 => Sys2Proof.Machine.execCmp reg1 reg2 s
  | .halt => Sys2Proof.Machine.execHalt s

end Sys2Proof.Machine
end

