-- ==== Sys2Proof/Machine/Fetch.lean ====
section
/-! DEFINITION. Stages 1 to 3 of the instruction cycle (R76, R77): the fetch check, the opcode
fetch, decoding, and the operand fetch. -/

namespace Sys2Proof.Machine

/-- R80: what the fetch stages deliver, with operands filled in from the bytes after the opcode. -/
inductive Fetched where
  /-- an instruction of the table -/
  | instr (i : Instr)
  /-- `Unknown(byte)`, which has no operands -/
  | unknown (op : Byte)
  deriving DecidableEq, Repr

/-- R76, R77: the instruction at `pc`, or `InvalidAddress` where the opcode byte or an operand byte
lies at or past `MEM_SIZE`. -/
def fetch (s : State) : Except ErrKind Fetched :=
  if s.cfg.memSize ≤ s.pc then .error .invalidAddress
  else
    match decodeByte (s.byteAt s.pc) with
    | .unknown op => .ok (.unknown op)
    | .known m =>
      if s.cfg.memSize < s.pc + 1 + m.arity then .error .invalidAddress
      else .ok (.instr (m.build (fun k => s.byteAt (s.pc + k))))

/-- The state with bytes placed at `pc`, so far as memory reaches. -/
def State.placeAtPc (s : State) (bytes : List Byte) : State :=
  { s with mem := s.mem.writeBytes s.cfg.memSize s.pc bytes }

end Sys2Proof.Machine
end

