-- ==== Sys2Proof/Machine/Step.lean ====
section
/-! DEFINITION. One step of the CORE (R79, R89), and the placing of an instruction where the next
step fetches it. -/

namespace Sys2Proof.Machine

/-- R89: fetch, decode, validate, execute and commit one instruction, or raise one error. Defined
only while Running: a terminal CORE has no step (R86), which is the fault `terminal`. -/
def step (s : State) : Host.Outcome State Fault Refusal :=
  match s.run with
  | .running =>
    match fetch s with
    | .error k => settle s (.error k)
    | .ok (.unknown op) => execUnknown op s
    | .ok (.instr i) => exec i s
  | r => .fault (.terminal r)

/-- The instruction with table bits `w` (zeros above `nbits`) stored at `pc`; nothing else changes.
The machine fetches at `pc` alone, so the next step of a Running state runs it (log entry 4). -/
def State.withFetchWord (s : State) (nbits w : Nat) : State := s.placeAtPc (tableBytes nbits w)

end Sys2Proof.Machine
end

