-- ==== Sys2Proof/Machine/Assembler.lean ====
section
/-! DEFINITION. The assembler (R100 to R118): a pure two-pass translation of source text into the
byte encoding, or one error. Source text is a list of characters. -/

namespace Sys2Proof.Assembler

/-- Source text and its pieces. -/
abbrev Text := List Char

/-- R115: the reasons of an `AssemblySyntaxError`. -/
inductive SyntaxReason where
  | unknownMnemonic
  | duplicateLabel
  | operandCount
  | badOperand
  | labelNotAllowed
  deriving DecidableEq, Repr

/-- R115: the assembler's errors, each with its 1-based line. -/
inductive AsmError where
  | syntaxError (line : Nat) (reason : SyntaxReason)
  | unresolvedLabel (name : Text) (line : Nat)
  | operandOverflow (line : Nat)
  deriving DecidableEq, Repr

/-- R191: the host's status code of an assembler error. -/
def asmErrorCode : AsmError → Nat
  | .syntaxError _ _ => 9
  | .unresolvedLabel _ _ => 10
  | .operandOverflow _ => 11

/-! Lexical structure (R101 to R108). -/

/-- The pieces of a text between the occurrences of a separator; never empty. -/
def splitAtChar (sep : Char) : Text → List Text
  | [] => [[]]
  | c :: rest =>
    if c = sep then [] :: splitAtChar sep rest
    else
      match splitAtChar sep rest with
      | [] => [[c]]
      | piece :: pieces => (c :: piece) :: pieces

/-- R101: a carriage return immediately before a line feed is removed. -/
def dropReturn (line : Text) : Text :=
  if line.getLast? = some '\r' then line.dropLast else line

/-- R101: the physical lines of a source; the last one is ended by no line feed. -/
def physicalLines (source : Text) : List Text :=
  let pieces := splitAtChar '\n' source
  pieces.dropLast.map dropReturn ++ pieces.getLast?.toList

/-- R102: whitespace is the space and the tab. -/
def isSpace (c : Char) : Bool := c == ' ' || c == '\t'

/-- R102: leading and trailing whitespace removed. -/
def trim (t : Text) : Text := ((t.dropWhile isSpace).reverse.dropWhile isSpace).reverse

/-- R102: a `;` and everything after it is a comment. -/
def stripComment (line : Text) : Text := line.takeWhile (fun c => c != ';')

/-- R104: `[A-Za-z_]`. -/
def isIdentStart (c : Char) : Bool := c.isAlpha || c == '_'

/-- R104: `[A-Za-z0-9_]`. -/
def isIdentChar (c : Char) : Bool := c.isAlpha || c.isDigit || c == '_'

/-- R104: an identifier. -/
def isIdent : Text → Bool
  | [] => false
  | c :: rest => isIdentStart c && rest.all isIdentChar

/-- R102, R103: what a line is, after its comment and outer whitespace are removed. -/
inductive Line where
  | blank
  | label (name : Text)
  | instr (mnemonic operands : Text)
  deriving DecidableEq, Repr

/-- R102, R103, R106: the class of a physical line. A label definition is exactly an identifier
immediately followed by `:`; the mnemonic token is the maximal prefix without whitespace. -/
def classify (raw : Text) : Line :=
  let t := trim (stripComment raw)
  if t = [] then .blank
  else if t.getLast? = some ':' && isIdent t.dropLast then .label t.dropLast
  else .instr (t.takeWhile (fun c => !isSpace c)) (trim (t.dropWhile (fun c => !isSpace c)))

/-- R106: letter case is ignored. -/
def foldCase (t : Text) : Text := t.map Char.toLower

/-- R106: the instruction a mnemonic token names; `Unknown` names none. -/
def lookupMnemonic (token : Text) : Option Opcode :=
  Opcode.all.find? (fun m => foldCase m.row.name == foldCase token)

/-- R105: a hexadecimal digit. -/
def isHexDigit (c : Char) : Bool :=
  c.isDigit || (decide ('a' ≤ c) && decide (c ≤ 'f')) || (decide ('A' ≤ c) && decide (c ≤ 'F'))

/-- The value of a decimal or hexadecimal digit. -/
def digitValue (c : Char) : Nat :=
  if c.isDigit then c.toNat - '0'.toNat
  else if 'a' ≤ c then c.toNat - 'a'.toNat + 10
  else c.toNat - 'A'.toNat + 10

/-- R105: the natural-number value of a digit string, unbounded. -/
def numberValue (radix : Nat) (digits : Text) : Nat :=
  digits.foldl (fun acc c => acc * radix + digitValue c) 0

/-- R105: `[0-9]+`. -/
def isDecimal (t : Text) : Bool := !t.isEmpty && t.all Char.isDigit

/-- R105: `0[xX][0-9A-Fa-f]+`, its digits. -/
def hexDigits? : Text → Option Text
  | '0' :: x :: digits =>
    if (x == 'x' || x == 'X') && !digits.isEmpty && digits.all isHexDigit then some digits
    else none
  | _ => none

/-- R107: an operand as written. -/
inductive Operand where
  | literal (value : Nat)
  | ident (name : Text)
  | malformed
  deriving DecidableEq, Repr

/-- R105, R107: the classification of one operand piece. -/
def parseOperand (piece : Text) : Operand :=
  if isDecimal piece then .literal (numberValue 10 piece)
  else
    match hexDigits? piece with
    | some digits => .literal (numberValue 16 digits)
    | none => if isIdent piece then .ident piece else .malformed

/-- R107: the operand list of an operand text. -/
def operandList (operands : Text) : List Operand :=
  if operands = [] then []
  else (splitAtChar ',' operands).map (fun piece => parseOperand (trim piece))

/-! The two passes (R109 to R113). -/

/-- Label names with their byte offsets. -/
abbrev Labels := List (Text × Nat)

/-- The offset of a label. -/
def labelOffset (labels : Labels) (name : Text) : Option Nat :=
  (labels.find? (fun l => l.1 == name)).map Prod.snd

/-- R109: pass 1 from line `n` on, at byte offset `offset` with the labels already defined: the
final offset and every label. -/
def pass1 (n offset : Nat) (labels : Labels) : List Line → Except AsmError (Nat × Labels)
  | [] => .ok (offset, labels)
  | .blank :: rest => pass1 (n + 1) offset labels rest
  | .label name :: rest =>
    match labelOffset labels name with
    | some _ => .error (.syntaxError n .duplicateLabel)
    | none => pass1 (n + 1) offset (labels ++ [(name, offset)]) rest
  | .instr mnemonic _ :: rest =>
    match lookupMnemonic mnemonic with
    | none => .error (.syntaxError n .unknownMnemonic)
    | some m => pass1 (n + 1) (offset + 1 + m.arity) labels rest

/-- R112: the range check of a resolved operand. -/
def fitByte (n v : Nat) : Except AsmError Byte :=
  if 255 < v then .error (.operandOverflow n) else .ok (BitVec.ofNat 8 v)

/-- R112: `Resolve`, its checks in order: malformed, label allowed, label defined, range. -/
def resolve (labels : Labels) (n : Nat) (kind : OperandKind) : Operand → Except AsmError Byte
  | .malformed => .error (.syntaxError n .badOperand)
  | .ident name =>
    if kind = .addr then
      match labelOffset labels name with
      | none => .error (.unresolvedLabel name n)
      | some v => fitByte n v
    else .error (.syntaxError n .labelNotAllowed)
  | .literal v => fitByte n v

/-- R111: the operands of one line resolved left to right; the first error is the line's. -/
def resolveAll (labels : Labels) (n : Nat) :
    List (OperandKind × Operand) → Except AsmError (List Byte)
  | [] => .ok []
  | (kind, t) :: rest => do
    let v ← resolve labels n kind t
    let vs ← resolveAll labels n rest
    return v :: vs

/-- R111: the bytes of one instruction line. -/
def emitLine (labels : Labels) (n : Nat) (mnemonic operands : Text) :
    Except AsmError (List Byte) :=
  match lookupMnemonic mnemonic with
  | none => .error (.syntaxError n .unknownMnemonic)
  | some m =>
    let ops := operandList operands
    if ops.length ≠ m.arity then .error (.syntaxError n .operandCount)
    else do
      let vals ← resolveAll labels n (m.kinds.zip ops)
      return m.byte :: vals

/-- R111: pass 2 from line `n` on; blank lines and label definitions emit nothing. -/
def pass2 (labels : Labels) (n : Nat) : List Line → Except AsmError (List Byte)
  | [] => .ok []
  | .blank :: rest => pass2 labels (n + 1) rest
  | .label _ :: rest => pass2 labels (n + 1) rest
  | .instr mnemonic operands :: rest => do
    let bytes ← emitLine labels n mnemonic operands
    let more ← pass2 labels (n + 1) rest
    return bytes ++ more

/-- R109, R111, R113: both passes over classified lines; pass 1 runs over every line first. -/
def assembleLines (ls : List Line) : Except AsmError (List Byte) :=
  match pass1 1 0 [] ls with
  | .error e => .error e
  | .ok (_, labels) => pass2 labels 1 ls

/-- R100: the assembler. -/
def assemble (source : Text) : Except AsmError (List Byte) :=
  assembleLines ((physicalLines source).map classify)

end Sys2Proof.Assembler
end

