-- ==== Sys2Proof/Machine/HostInterface.lean ====
section
/-! DEFINITION. What the host can do to a CORE (R206): construct, step, run, read its status. -/

namespace Sys2Proof.Machine

/-- R221: a construction is accepted exactly when there is a register, there is a cell, the entry
point is a cell, and the image fits; the stack capacities may be any natural number. -/
def constructible (c : Config) (image : List Byte) : Bool :=
  decide (1 ≤ c.regCount) && decide (1 ≤ c.memSize) && decide (c.entry < c.memSize) &&
    decide (image.length ≤ c.memSize)

/-- R220, R222: a new CORE, or none where the construction is refused: the image at address 0,
0x00 above, and every other state at its value of R40. -/
def State.construct (c : Config) (image : List Byte) : Option State :=
  if constructible c image then
    some
      { cfg := c
        run := .running
        pc := c.entry
        x := List.replicate c.regCount 0x00
        mem := Memory.writeBytes [] c.memSize 0 image
        os := []
        cs := []
        z := false
        g := false
        out := [] }
  else none

/-- R32: Halted and Errored are terminal. -/
def State.isTerminal (s : State) : Bool :=
  match s.run with
  | .running => false
  | .halted => true
  | .errored _ => true

/-- R86, R206: the host's `step()` request: one step, or nothing on a terminal CORE. -/
def State.hostStep (s : State) : State :=
  match step s with
  | .next t => t
  | .fault _ => s
  | .refused _ => s

/-- R87, R208: `run()` under an external limit of `n` steps. It stops early at a terminal state; a
CORE whose limit is reached is left Running. -/
def State.runFor : Nat → State → State
  | 0, s => s
  | n + 1, s => if s.isTerminal then s else State.runFor n s.hostStep

/-- R87: `run()` returns with this state: a terminal state some number of steps reaches. A run that
reaches none never returns. -/
def State.RunsTo (s t : State) : Prop := t.isTerminal = true ∧ ∃ n, State.runFor n s = t

/-- R33: `RUN_STATE`. -/
def State.runStateCode (s : State) : Nat :=
  match s.run with
  | .running => 0
  | .halted => 1
  | .errored _ => 2

/-- R190: the numeric code of an error kind. -/
def errKindNumber : ErrKind → Nat
  | .invalidRegister => 1
  | .invalidAddress => 2
  | .stackOverflow => 3
  | .stackUnderflow => 4
  | .callStackOverflow => 5
  | .callStackUnderflow => 6
  | .divisionByZero => 7
  | .unknownOpcode _ => 8

/-- R33: `ERR_KIND`, 0 unless Errored. -/
def State.errKindCode (s : State) : Nat :=
  match s.run with
  | .running => 0
  | .halted => 0
  | .errored k => errKindNumber k

/-- R33: `ERR_BYTE`, the opcode byte of `UnknownOpcode(byte)` and 0 otherwise. -/
def State.errByte (s : State) : Byte :=
  match s.run with
  | .errored (.unknownOpcode op) => op
  | _ => 0

/-- R33: the status triple the host reads. -/
def State.status (s : State) : Nat × Nat × Byte := (s.runStateCode, s.errKindCode, s.errByte)

end Sys2Proof.Machine
end

