-- ==== Sys2Proof/WellFormed.lean ====
section
/-! DEFINITION. When an instruction's operands exist in a given configuration: every register it
references is below `REG_COUNT` (R22, the implicit `r1` of LdIdx and StIdx included, R23) and every
address operand is below `MEM_SIZE` (R53). Written instruction by instruction, apart from the
validation stage (`Machine.validate`), which follows R82's loop over the operand kinds. -/

namespace Sys2Proof

/-- R22: the register exists. -/
def Config.hasReg (c : Config) (r : Byte) : Bool := decide (r.toNat < c.regCount)

/-- R53: the address exists. -/
def Config.hasAddr (c : Config) (a : Byte) : Bool := decide (a.toNat < c.memSize)

/-- R22, R23, R53: every operand of the instruction names a register or a cell that exists. An
immediate is never checked (R133). -/
def Instr.wellFormed (c : Config) : Instr → Bool
  | .inc r | .dec r | .out r | .push r | .pop r => c.hasReg r
  | .mov r _ => c.hasReg r
  | .call a | .jmp a | .jeq a | .jgt a => c.hasAddr a
  | .load r a | .store r a => c.hasReg r && c.hasAddr a
  | .ldIdx r b | .stIdx r b => c.hasReg r && c.hasReg 1 && c.hasAddr b
  | .add d s | .sub d s | .mul d s | .div d s | .cmp d s => c.hasReg d && c.hasReg s
  | .ret | .halt => true

end Sys2Proof
end

