-- ==== Sys2Proof/Safety.lean ====
section
/-! DEFINITION. The terms claims are stated in: the legal states of a CORE, an error as an outcome,
how a step runs an opcode byte, and what each instruction is said to write (R24, R54). -/

namespace Sys2Proof.Machine

/-- A legal state: what the spec says holds of a CORE at every instant of a run. -/
structure State.Inv (s : State) : Prop where
  /-- R221: the configuration is one a construction accepts. -/
  config : 1 ≤ s.cfg.regCount ∧ 1 ≤ s.cfg.memSize ∧ s.cfg.entry < s.cfg.memSize
  /-- R21: there are `REG_COUNT` registers. -/
  regs : s.x.length = s.cfg.regCount
  /-- R25: `pc` lies in 0..`MEM_SIZE`. -/
  pcBound : s.pc ≤ s.cfg.memSize
  /-- The memory is in canonical form (the model's own). -/
  memForm : s.mem.wf
  /-- R50: only cells 0..`MEM_SIZE`-1 exist. -/
  memBound : ∀ c ∈ s.mem, c.1 < s.cfg.memSize
  /-- R30: the operand stack's depth. -/
  osBound : s.os.length ≤ s.cfg.stackCap
  /-- R31: the call stack's depth. -/
  csBound : s.cs.length ≤ s.cfg.callStackCap
  /-- R31: every return address lies in 0..`MEM_SIZE`. -/
  csAddrs : ∀ a ∈ s.cs, a ≤ s.cfg.memSize
  /-- R28: the flags are never both true. -/
  flags : ¬(s.z = true ∧ s.g = true)

/-- R84: the outcome of a step that raises `k`: `run` is `Errored(k)` and nothing else changed. -/
def errsWith (s : State) (k : ErrKind) : Host.Outcome State Fault Refusal :=
  .next { s with run := .errored k }

/-- R77, R89: a step whose opcode byte is `op`, with `arity` operand bytes, raises `InvalidAddress`
if its bytes reach past the end of memory, and otherwise runs the instruction built from the operand
bytes `b 1`, `b 2` that follow the opcode. -/
def RunsAs (op : Byte) (arity : Nat) (build : (Nat → Byte) → Instr) : Prop :=
  ∀ s : State, s.run = .running → s.byteAt s.pc = op →
    step s =
      if s.cfg.memSize < s.pc + 1 + arity then errsWith s .invalidAddress
      else exec (build (fun k => s.byteAt (s.pc + k))) s

/-- The bytes of memory from `pc` on, as many as an instruction may have and memory holds. -/
def State.bytesAtPc (s : State) : List Byte :=
  (List.range (min Config.maxInstrLength (s.cfg.memSize - s.pc))).map
    (fun k => s.byteAt (s.pc + k))

/-- R75: the 235 opcode bytes outside the table, range by range. -/
def undefinedOpcode (b : Byte) : Bool :=
  let n := b.toNat
  decide (n = 0x00) || (decide (0x05 ≤ n) && decide (n ≤ 0x0F)) ||
    (decide (0x14 ≤ n) && decide (n ≤ 0x1F)) || (decide (0x24 ≤ n) && decide (n ≤ 0x2F)) ||
    (decide (0x34 ≤ n) && decide (n ≤ 0x3F)) || (decide (0x44 ≤ n) && decide (n ≤ 0xFE))

/-- R24: the register an instruction of the register-writing forms writes (Inc, Dec, Mov, Load,
LdIdx, Add, Sub, Mul, Div; Pop, which also writes the operand stack, is a stack form). -/
def registerDest : Instr → Option Byte
  | .inc r | .dec r | .mov r _ | .load r _ | .ldIdx r _ => some r
  | .add d _ | .sub d _ | .mul d _ | .div d _ => some d
  | _ => none

/-- R54: the address a storing form writes: the operand of Store, the effective address of StIdx. -/
def storeTarget (s : State) : Instr → Option Nat
  | .store _ a => some a.toNat
  | .stIdx _ b => some (indexedAddress s b)
  | _ => none

/-- The instructions that write neither a register nor memory nor a stack: Out, Jmp, Jeq, Jgt, Cmp,
Halt. -/
def isControlForm : Instr → Bool
  | .out _ | .jmp _ | .jeq _ | .jgt _ | .cmp _ _ | .halt => true
  | _ => false

/-- R190: what must hold of the state before a step that ends with an error kind: the instruction
that raises it and when. `i m` below is the instruction with opcode `m` standing at `pc`. -/
def ErrorCause (s : State) : ErrKind → Prop
  | .invalidRegister => ∃ m : Opcode, s.byteAt s.pc = m.byte ∧
      ((∃ r ∈ regOperands (m.build fun k => s.byteAt (s.pc + k)), s.cfg.regCount ≤ r.toNat) ∨
        ((m = .ldIdx ∨ m = .stIdx) ∧ s.cfg.regCount ≤ 1))
  | .invalidAddress => s.cfg.memSize ≤ s.pc ∨ ∃ m : Opcode, s.byteAt s.pc = m.byte ∧
      (s.cfg.memSize < s.pc + 1 + m.arity ∨
        (∃ a ∈ addrOperands (m.build fun k => s.byteAt (s.pc + k)), s.cfg.memSize ≤ a.toNat) ∨
        ((m = .ldIdx ∨ m = .stIdx) ∧
          s.cfg.memSize ≤ (s.byteAt (s.pc + 2)).toNat + (s.reg 1).toNat))
  | .stackOverflow => s.byteAt s.pc = 0x10 ∧ s.cfg.stackCap ≤ s.os.length
  | .stackUnderflow => s.byteAt s.pc = 0x11 ∧ s.os = []
  | .callStackOverflow => s.byteAt s.pc = 0x12 ∧ s.cfg.callStackCap ≤ s.cs.length
  | .callStackUnderflow => s.byteAt s.pc = 0x13 ∧ s.cs = []
  | .divisionByZero => s.byteAt s.pc = 0x33 ∧ s.reg (s.byteAt (s.pc + 2)).toNat = 0
  | .unknownOpcode op => op = s.byteAt s.pc ∧ undefinedOpcode op = true

/-- A run state a completed or failed instruction other than Halt can leave. -/
def RunKept (s t : State) : Prop := t.run = s.run ∨ ∃ k, t.run = .errored k

end Sys2Proof.Machine

namespace Sys2Proof.Assembler

/-- R109: the encoded size of a line: an instruction line's 1 + arity, nothing for the others. -/
def lineSize : Line → Nat
  | .blank => 0
  | .label _ => 0
  | .instr mnemonic _ =>
    match lookupMnemonic mnemonic with
    | none => 0
    | some m => 1 + m.arity

/-- The mnemonic token and operand text of an instruction line. -/
def instrLine : Line → Option (Text × Text)
  | .instr mnemonic operands => some (mnemonic, operands)
  | _ => none

/-- R111, R112: an instruction line (its mnemonic token and operand text) gives the instruction `i`:
the mnemonic names its opcode, there are as many operands as its arity, and its operand bytes are in
order what the operands resolve to. The line number shows only in an error, so any will do. -/
def LineGives (labels : Labels) (i : Instr) (line : Text × Text) : Prop :=
  lookupMnemonic line.1 = some i.opcode ∧
    (operandList line.2).length = i.opcode.arity ∧
    ∀ n, (i.opcode.kinds.zip (operandList line.2)).map (fun o => resolve labels n o.1 o.2) =
      i.operandBytes.map .ok

end Sys2Proof.Assembler
end

