-- ==== Sys2Proof/Certificates/Slice0/Obligations.lean ====
section
/-! DEFINITION. The statements for the provers, each from the numbered rules of spec/. -/

open Sys2Proof Sys2Proof.Machine

/-! Encoding and decoding. -/

/-- R71, R74, R77: decoding an instruction's encoding gives it back with every operand at every
value, and leaves the bytes after it. -/
def Obligations.DecodeEncodeRoundTrip : Prop :=
  ∀ (i : Instr) (rest : List Byte), decode (encode i ++ rest) = .ok (i, rest)

/-- R71, R74: the bytes an instruction was decoded from are its encoding. -/
def Obligations.DecodedBytesAreTheEncoding : Prop :=
  ∀ (bytes : List Byte) (i : Instr) (rest : List Byte),
    decode bytes = .ok (i, rest) → bytes = encode i ++ rest

/-- R74, R116: some words written out from the spec decode to the instruction they stand for. -/
def Obligations.SpecWordsDecode : Prop :=
  decode [0x04, 0x00, 0x05] = .ok (.mov 0 5, []) ∧
  decode [0x11, 0x03] = .ok (.pop 3, []) ∧
  decode [0x12, 0x1A] = .ok (.call 0x1A, []) ∧
  decode [0x20, 0x02, 0xFF] = .ok (.load 2 0xFF, []) ∧
  decode [0x23, 0x00, 0x50] = .ok (.stIdx 0 0x50, []) ∧
  decode [0x33, 0x03, 0x02] = .ok (.div 3 2, []) ∧
  decode [0x43, 0x01, 0x02] = .ok (.cmp 1 2, []) ∧
  decode [0xFF] = .ok (.halt, []) ∧
  decode [0x05, 0x01, 0x02] = .error (.unknownOpcode 0x05)

/-- R75: the decoder is total: each of the 21 bytes of the table gives its row (mnemonic and operand
kinds), each of the other 235 gives `Unknown(byte)` with arity 0. -/
def Obligations.DecoderReadsTheOpcodeMap : Prop :=
  (∀ row ∈ ([(.inc, 0x01, [.reg]), (.dec, 0x02, [.reg]), (.out, 0x03, [.reg]),
      (.mov, 0x04, [.reg, .imm]), (.push, 0x10, [.reg]), (.pop, 0x11, [.reg]),
      (.call, 0x12, [.addr]), (.ret, 0x13, []), (.load, 0x20, [.reg, .addr]),
      (.store, 0x21, [.reg, .addr]), (.ldIdx, 0x22, [.reg, .addr]),
      (.stIdx, 0x23, [.reg, .addr]), (.add, 0x30, [.reg, .reg]), (.sub, 0x31, [.reg, .reg]),
      (.mul, 0x32, [.reg, .reg]), (.div, 0x33, [.reg, .reg]), (.jmp, 0x40, [.addr]),
      (.jeq, 0x41, [.addr]), (.jgt, 0x42, [.addr]), (.cmp, 0x43, [.reg, .reg]),
      (.halt, 0xFF, [])] : List (Opcode × Byte × List OperandKind)),
    decodeByte row.2.1 = .known row.1 ∧ row.1.kinds = row.2.2 ∧
      (decodeByte row.2.1).arity = row.2.2.length) ∧
  (∀ b : Byte, undefinedOpcode b = true →
    decodeByte b = .unknown b ∧ (decodeByte b).arity = 0) ∧
  (∀ b : Byte, undefinedOpcode b = false → ∃ m : Opcode, decodeByte b = .known m)

/-- R70: an instruction is 1, 2 or 3 bytes, its opcode byte first, and the opcode byte alone decides
how many: two instructions decoded from byte strings that begin with the same byte have the same
length. -/
def Obligations.OpcodeByteDecidesLength : Prop :=
  ∀ (op : Byte) (tail tail' rest rest' : List Byte) (i j : Instr),
    decode (op :: tail) = .ok (i, rest) → decode (op :: tail') = .ok (j, rest') →
      (encode i).length = (encode j).length ∧ i.opcode = j.opcode ∧
        1 ≤ (encode i).length ∧ (encode i).length ≤ 3 ∧ (encode i).head? = some op

/-! Fetching and stepping. -/

/-- R89: a Running step is the execution of the instruction that the bytes at `pc` decode to;
`exec` itself moves `pc`, so the step adds nothing. Bytes that hold no whole instruction raise
`InvalidAddress`, an undefined opcode byte `UnknownOpcode`. -/
def Obligations.StepRunsTheDecodedInstruction : Prop :=
  ∀ s : State, s.run = .running →
    (∀ i rest, decode s.bytesAtPc = .ok (i, rest) → step s = exec i s) ∧
    (decode s.bytesAtPc = .error .truncated → step s = errsWith s .invalidAddress) ∧
    (∀ op, decode s.bytesAtPc = .error (.unknownOpcode op) →
      step s = errsWith s (.unknownOpcode op))

/-- R76: a `pc` outside memory fails the fetch check, and the reported pc is that pc. -/
def Obligations.FetchOutsideMemoryErrs : Prop :=
  ∀ s : State, s.run = .running → s.cfg.memSize ≤ s.pc → step s = errsWith s .invalidAddress

/-- R77: at each opcode byte of the table the operand bytes are read from the addresses after it,
and an operand byte at or past `MEM_SIZE` raises `InvalidAddress`. -/
def Obligations.OperandBytesAreFetched : Prop :=
  ∀ m : Opcode, RunsAs m.byte m.arity m.build

/-- R181: executing any of the 235 bytes outside the table raises `UnknownOpcode(byte)` with `pc`
kept, and reads no byte after it (the statement holds wherever the next bytes lie). -/
def Obligations.UndefinedOpcodeErrs : Prop :=
  ∀ s : State, s.run = .running → undefinedOpcode (s.byteAt s.pc) = true →
    step s =
      if s.cfg.memSize ≤ s.pc then errsWith s .invalidAddress
      else errsWith s (.unknownOpcode (s.byteAt s.pc))

/-- R86: a step exists exactly in Running; a terminal CORE has none, and the host's step and run
requests on it change nothing (the spec's own decision D11, log entry 3). -/
def Obligations.OnlyRunningSteps : Prop :=
  (∀ s : State, s.run = .running → ∃ t, step s = .next t) ∧
  (∀ s : State, s.run ≠ .running →
    step s = .fault (.terminal s.run) ∧ s.hostStep = s ∧ ∀ n, s.runFor n = s)

/-! Instructions: what each does, when it fails, and the bytes that are it. -/

/-- R130 Inc. -/
def Obligations.IncAddsOne : Prop :=
  RunsAs 0x01 1 (fun b => .inc (b 1)) ∧
  ∀ (r : Byte) (s : State), s.Inv →
    (r.toNat < s.cfg.regCount →
      ∃ t, exec (.inc r) s = .next t ∧
        (t.reg r.toNat).toNat = ((s.reg r.toNat).toNat + 1) % 256 ∧
        (∀ j, j ≠ r.toNat → t.reg j = s.reg j) ∧ t = { s with x := t.x, pc := s.pc + 2 }) ∧
    (s.cfg.regCount ≤ r.toNat → exec (.inc r) s = errsWith s .invalidRegister)

/-- R131 Dec. -/
def Obligations.DecSubtractsOne : Prop :=
  RunsAs 0x02 1 (fun b => .dec (b 1)) ∧
  ∀ (r : Byte) (s : State), s.Inv →
    (r.toNat < s.cfg.regCount →
      ∃ t, exec (.dec r) s = .next t ∧
        (t.reg r.toNat).toNat = ((s.reg r.toNat).toNat + 255) % 256 ∧
        (∀ j, j ≠ r.toNat → t.reg j = s.reg j) ∧ t = { s with x := t.x, pc := s.pc + 2 }) ∧
    (s.cfg.regCount ≤ r.toNat → exec (.dec r) s = errsWith s .invalidRegister)

/-- R132 Out: one value per invocation, and nothing emitted on an invalid register. -/
def Obligations.OutEmitsTheRegister : Prop :=
  RunsAs 0x03 1 (fun b => .out (b 1)) ∧
  ∀ (r : Byte) (s : State),
    (r.toNat < s.cfg.regCount →
      exec (.out r) s = .next { s with out := s.out ++ [s.reg r.toNat], pc := s.pc + 2 }) ∧
    (s.cfg.regCount ≤ r.toNat → exec (.out r) s = errsWith s .invalidRegister)

/-- R133 Mov: every immediate is valid, whatever `MEM_SIZE`. -/
def Obligations.MovLoadsTheImmediate : Prop :=
  RunsAs 0x04 2 (fun b => .mov (b 1) (b 2)) ∧
  ∀ (r imm : Byte) (s : State), s.Inv →
    (r.toNat < s.cfg.regCount →
      ∃ t, exec (.mov r imm) s = .next t ∧ t.reg r.toNat = imm ∧
        (∀ j, j ≠ r.toNat → t.reg j = s.reg j) ∧ t = { s with x := t.x, pc := s.pc + 3 }) ∧
    (s.cfg.regCount ≤ r.toNat → exec (.mov r imm) s = errsWith s .invalidRegister)

/-- R140 Push: the register is checked before the depth. -/
def Obligations.PushPushesTheRegister : Prop :=
  RunsAs 0x10 1 (fun b => .push (b 1)) ∧
  ∀ (r : Byte) (s : State),
    (r.toNat < s.cfg.regCount → s.os.length < s.cfg.stackCap →
      exec (.push r) s = .next { s with os := s.os ++ [s.reg r.toNat], pc := s.pc + 2 }) ∧
    (r.toNat < s.cfg.regCount → s.cfg.stackCap ≤ s.os.length →
      exec (.push r) s = errsWith s .stackOverflow) ∧
    (s.cfg.regCount ≤ r.toNat → exec (.push r) s = errsWith s .invalidRegister)

/-- R141 Pop: the last entry of the list is the top. -/
def Obligations.PopPopsIntoTheRegister : Prop :=
  RunsAs 0x11 1 (fun b => .pop (b 1)) ∧
  ∀ (r : Byte) (s : State), s.Inv →
    (r.toNat < s.cfg.regCount → ∀ rest v, s.os = rest ++ [v] →
      ∃ t, exec (.pop r) s = .next t ∧ t.reg r.toNat = v ∧
        (∀ j, j ≠ r.toNat → t.reg j = s.reg j) ∧
        t = { s with x := t.x, os := rest, pc := s.pc + 2 }) ∧
    (r.toNat < s.cfg.regCount → s.os = [] → exec (.pop r) s = errsWith s .stackUnderflow) ∧
    (s.cfg.regCount ≤ r.toNat → exec (.pop r) s = errsWith s .invalidRegister)

/-- R142 Call: the return address is `a0 + 2`; the target is checked before the depth. -/
def Obligations.CallPushesTheReturnAddress : Prop :=
  RunsAs 0x12 1 (fun b => .call (b 1)) ∧
  ∀ (a : Byte) (s : State),
    (a.toNat < s.cfg.memSize → s.cs.length < s.cfg.callStackCap →
      exec (.call a) s = .next { s with cs := s.cs ++ [s.pc + 2], pc := a.toNat }) ∧
    (a.toNat < s.cfg.memSize → s.cfg.callStackCap ≤ s.cs.length →
      exec (.call a) s = errsWith s .callStackOverflow) ∧
    (s.cfg.memSize ≤ a.toNat → exec (.call a) s = errsWith s .invalidAddress)

/-- R143 Ret: the popped return address is not validated. -/
def Obligations.RetPopsIntoPc : Prop :=
  RunsAs 0x13 0 (fun _ => .ret) ∧
  ∀ s : State,
    (∀ rest a, s.cs = rest ++ [a] → exec .ret s = .next { s with cs := rest, pc := a }) ∧
    (s.cs = [] → exec .ret s = errsWith s .callStackUnderflow)

/-- R150 Load. -/
def Obligations.LoadReadsMemory : Prop :=
  RunsAs 0x20 2 (fun b => .load (b 1) (b 2)) ∧
  ∀ (r a : Byte) (s : State), s.Inv →
    (r.toNat < s.cfg.regCount → a.toNat < s.cfg.memSize →
      ∃ t, exec (.load r a) s = .next t ∧ t.reg r.toNat = s.byteAt a.toNat ∧
        (∀ j, j ≠ r.toNat → t.reg j = s.reg j) ∧ t = { s with x := t.x, pc := s.pc + 3 }) ∧
    (s.cfg.regCount ≤ r.toNat → exec (.load r a) s = errsWith s .invalidRegister) ∧
    (r.toNat < s.cfg.regCount → s.cfg.memSize ≤ a.toNat →
      exec (.load r a) s = errsWith s .invalidAddress)

/-- R151 Store. -/
def Obligations.StoreWritesMemory : Prop :=
  RunsAs 0x21 2 (fun b => .store (b 1) (b 2)) ∧
  ∀ (r a : Byte) (s : State),
    (r.toNat < s.cfg.regCount → a.toNat < s.cfg.memSize →
      ∃ t, exec (.store r a) s = .next t ∧ t.byteAt a.toNat = s.reg r.toNat ∧
        (∀ c, c ≠ a.toNat → t.byteAt c = s.byteAt c) ∧
        t = { s with mem := t.mem, pc := s.pc + 3 }) ∧
    (s.cfg.regCount ≤ r.toNat → exec (.store r a) s = errsWith s .invalidRegister) ∧
    (r.toNat < s.cfg.regCount → s.cfg.memSize ≤ a.toNat →
      exec (.store r a) s = errsWith s .invalidAddress)

/-- R152 LdIdx: `ea = base + x[1]`, read before the result is written, never wrapped. -/
def Obligations.LdIdxReadsIndexed : Prop :=
  RunsAs 0x22 2 (fun b => .ldIdx (b 1) (b 2)) ∧
  ∀ (r base : Byte) (s : State), s.Inv →
    (r.toNat < s.cfg.regCount → 1 < s.cfg.regCount →
      base.toNat + (s.reg 1).toNat < s.cfg.memSize →
      ∃ t, exec (.ldIdx r base) s = .next t ∧
        t.reg r.toNat = s.byteAt (base.toNat + (s.reg 1).toNat) ∧
        (∀ j, j ≠ r.toNat → t.reg j = s.reg j) ∧ t = { s with x := t.x, pc := s.pc + 3 }) ∧
    (s.cfg.regCount ≤ r.toNat ∨ s.cfg.regCount < 2 →
      exec (.ldIdx r base) s = errsWith s .invalidRegister) ∧
    (r.toNat < s.cfg.regCount → 1 < s.cfg.regCount →
      s.cfg.memSize ≤ base.toNat ∨ s.cfg.memSize ≤ base.toNat + (s.reg 1).toNat →
      exec (.ldIdx r base) s = errsWith s .invalidAddress)

/-- R153 StIdx: with `r = 1` the stored value is the index itself; an out-of-range address writes
nothing. -/
def Obligations.StIdxWritesIndexed : Prop :=
  RunsAs 0x23 2 (fun b => .stIdx (b 1) (b 2)) ∧
  ∀ (r base : Byte) (s : State),
    (r.toNat < s.cfg.regCount → 1 < s.cfg.regCount →
      base.toNat + (s.reg 1).toNat < s.cfg.memSize →
      ∃ t, exec (.stIdx r base) s = .next t ∧
        t.byteAt (base.toNat + (s.reg 1).toNat) = s.reg r.toNat ∧
        (∀ c, c ≠ base.toNat + (s.reg 1).toNat → t.byteAt c = s.byteAt c) ∧
        t = { s with mem := t.mem, pc := s.pc + 3 }) ∧
    (s.cfg.regCount ≤ r.toNat ∨ s.cfg.regCount < 2 →
      exec (.stIdx r base) s = errsWith s .invalidRegister) ∧
    (r.toNat < s.cfg.regCount → 1 < s.cfg.regCount →
      s.cfg.memSize ≤ base.toNat ∨ s.cfg.memSize ≤ base.toNat + (s.reg 1).toNat →
      exec (.stIdx r base) s = errsWith s .invalidAddress)

/-- R162 Add. -/
def Obligations.AddWraps : Prop :=
  RunsAs 0x30 2 (fun b => .add (b 1) (b 2)) ∧
  ∀ (d r : Byte) (s : State), s.Inv →
    (d.toNat < s.cfg.regCount → r.toNat < s.cfg.regCount →
      ∃ t, exec (.add d r) s = .next t ∧
        (t.reg d.toNat).toNat = ((s.reg d.toNat).toNat + (s.reg r.toNat).toNat) % 256 ∧
        (∀ j, j ≠ d.toNat → t.reg j = s.reg j) ∧ t = { s with x := t.x, pc := s.pc + 3 }) ∧
    (s.cfg.regCount ≤ d.toNat ∨ s.cfg.regCount ≤ r.toNat →
      exec (.add d r) s = errsWith s .invalidRegister)

/-- R163 Sub. -/
def Obligations.SubWraps : Prop :=
  RunsAs 0x31 2 (fun b => .sub (b 1) (b 2)) ∧
  ∀ (d r : Byte) (s : State), s.Inv →
    (d.toNat < s.cfg.regCount → r.toNat < s.cfg.regCount →
      ∃ t, exec (.sub d r) s = .next t ∧
        (t.reg d.toNat).toNat = ((s.reg d.toNat).toNat + 256 - (s.reg r.toNat).toNat) % 256 ∧
        (∀ j, j ≠ d.toNat → t.reg j = s.reg j) ∧ t = { s with x := t.x, pc := s.pc + 3 }) ∧
    (s.cfg.regCount ≤ d.toNat ∨ s.cfg.regCount ≤ r.toNat →
      exec (.sub d r) s = errsWith s .invalidRegister)

/-- R164 Mul. -/
def Obligations.MulKeepsTheLowByte : Prop :=
  RunsAs 0x32 2 (fun b => .mul (b 1) (b 2)) ∧
  ∀ (d r : Byte) (s : State), s.Inv →
    (d.toNat < s.cfg.regCount → r.toNat < s.cfg.regCount →
      ∃ t, exec (.mul d r) s = .next t ∧
        (t.reg d.toNat).toNat = ((s.reg d.toNat).toNat * (s.reg r.toNat).toNat) % 256 ∧
        (∀ j, j ≠ d.toNat → t.reg j = s.reg j) ∧ t = { s with x := t.x, pc := s.pc + 3 }) ∧
    (s.cfg.regCount ≤ d.toNat ∨ s.cfg.regCount ≤ r.toNat →
      exec (.mul d r) s = errsWith s .invalidRegister)

/-- R165 Div: the registers are checked before the zero test. -/
def Obligations.DivRoundsDown : Prop :=
  RunsAs 0x33 2 (fun b => .div (b 1) (b 2)) ∧
  ∀ (d r : Byte) (s : State), s.Inv →
    (d.toNat < s.cfg.regCount → r.toNat < s.cfg.regCount → s.reg r.toNat ≠ 0 →
      ∃ t, exec (.div d r) s = .next t ∧
        (t.reg d.toNat).toNat = (s.reg d.toNat).toNat / (s.reg r.toNat).toNat ∧
        (∀ j, j ≠ d.toNat → t.reg j = s.reg j) ∧ t = { s with x := t.x, pc := s.pc + 3 }) ∧
    (d.toNat < s.cfg.regCount → r.toNat < s.cfg.regCount → s.reg r.toNat = 0 →
      exec (.div d r) s = errsWith s .divisionByZero) ∧
    (s.cfg.regCount ≤ d.toNat ∨ s.cfg.regCount ≤ r.toNat →
      exec (.div d r) s = errsWith s .invalidRegister)

/-- R170 Jmp. -/
def Obligations.JmpJumps : Prop :=
  RunsAs 0x40 1 (fun b => .jmp (b 1)) ∧
  ∀ (a : Byte) (s : State),
    (a.toNat < s.cfg.memSize → exec (.jmp a) s = .next { s with pc := a.toNat }) ∧
    (s.cfg.memSize ≤ a.toNat → exec (.jmp a) s = errsWith s .invalidAddress)

/-- R171 Jeq: the target is validated even when `Z` is false, which is the spec's own decision D10
(log entry 8). -/
def Obligations.JeqJumpsOnZero : Prop :=
  RunsAs 0x41 1 (fun b => .jeq (b 1)) ∧
  ∀ (a : Byte) (s : State),
    (a.toNat < s.cfg.memSize → s.z = true →
      exec (.jeq a) s = .next { s with pc := a.toNat }) ∧
    (a.toNat < s.cfg.memSize → s.z = false →
      exec (.jeq a) s = .next { s with pc := s.pc + 2 }) ∧
    (s.cfg.memSize ≤ a.toNat → exec (.jeq a) s = errsWith s .invalidAddress)

/-- R172 Jgt: the target is validated even when `G` is false ("Exceptions: as Jeq"), which is the
spec's own decision D10 (log entry 8). -/
def Obligations.JgtJumpsOnGreater : Prop :=
  RunsAs 0x42 1 (fun b => .jgt (b 1)) ∧
  ∀ (a : Byte) (s : State),
    (a.toNat < s.cfg.memSize → s.g = true →
      exec (.jgt a) s = .next { s with pc := a.toNat }) ∧
    (a.toNat < s.cfg.memSize → s.g = false →
      exec (.jgt a) s = .next { s with pc := s.pc + 2 }) ∧
    (s.cfg.memSize ≤ a.toNat → exec (.jgt a) s = errsWith s .invalidAddress)

/-- R173 Cmp: both flags, from an unsigned comparison; on an invalid register both keep their old
values. -/
def Obligations.CmpSetsBothFlags : Prop :=
  RunsAs 0x43 2 (fun b => .cmp (b 1) (b 2)) ∧
  ∀ (p q : Byte) (s : State),
    (p.toNat < s.cfg.regCount → q.toNat < s.cfg.regCount →
      ∃ t, exec (.cmp p q) s = .next t ∧
        (t.z = true ↔ (s.reg p.toNat).toNat = (s.reg q.toNat).toNat) ∧
        (t.g = true ↔ (s.reg p.toNat).toNat > (s.reg q.toNat).toNat) ∧
        t = { s with z := t.z, g := t.g, pc := s.pc + 3 }) ∧
    (s.cfg.regCount ≤ p.toNat ∨ s.cfg.regCount ≤ q.toNat →
      exec (.cmp p q) s = errsWith s .invalidRegister)

/-- R180 Halt: nothing else changes, whatever the stacks hold. That the natural advance commits is
the spec's own inference ("[derived: from 30_encoding.md rules R77 and R81]"); that no step follows
is R86 (the spec's own decision D11), and that `step` then answers the fault `terminal` is the
model's reading of it (log entry 3). -/
def Obligations.HaltStopsTheMachine : Prop :=
  RunsAs 0xFF 0 (fun _ => .halt) ∧
  ∀ s : State, ∃ t, exec .halt s = .next t ∧ t = { s with run := .halted, pc := s.pc + 1 } ∧
    step t = .fault (.terminal .halted)

/-! Frames: what each form leaves unchanged whenever it answers a next state, an error included. -/

/-- R24: Inc, Dec, Mov, Load, LdIdx, Add, Sub, Mul and Div change no register but their destination
and no byte of memory, no stack, flag or output. -/
def Obligations.RegisterFormsFrame : Prop :=
  ∀ (i : Instr) (d : Byte), registerDest i = some d →
    ∀ s t : State, exec i s = .next t →
      (∀ j, j ≠ d.toNat → t.reg j = s.reg j) ∧ (∀ a, t.byteAt a = s.byteAt a) ∧
        t.os = s.os ∧ t.cs = s.cs ∧ t.z = s.z ∧ t.g = s.g ∧ t.out = s.out ∧ t.cfg = s.cfg ∧
        RunKept s t

/-- R54: Store and StIdx change no byte of memory but the one at the address they compute, and no
register, stack, flag or output. -/
def Obligations.StoreFormsFrame : Prop :=
  ∀ (i : Instr) (s t : State) (ea : Nat), storeTarget s i = some ea → exec i s = .next t →
    (∀ a, a ≠ ea → t.byteAt a = s.byteAt a) ∧ (∀ j, t.reg j = s.reg j) ∧
      t.os = s.os ∧ t.cs = s.cs ∧ t.z = s.z ∧ t.g = s.g ∧ t.out = s.out ∧ t.cfg = s.cfg ∧
      RunKept s t

/-- R30, R31: Push and Pop change nothing but the operand stack, the popped register and `pc`; Call
and Ret nothing but the call stack and `pc`. -/
def Obligations.StackFormsFrame : Prop :=
  (∀ (r : Byte) (i : Instr) (s t : State), i = .push r ∨ i = .pop r → exec i s = .next t →
    (∀ j, (i = .push r ∨ j ≠ r.toNat) → t.reg j = s.reg j) ∧
      (∀ a, t.byteAt a = s.byteAt a) ∧ t.cs = s.cs ∧ t.z = s.z ∧ t.g = s.g ∧ t.out = s.out ∧
      t.cfg = s.cfg ∧ RunKept s t) ∧
  (∀ (a : Byte) (i : Instr) (s t : State), i = .call a ∨ i = .ret → exec i s = .next t →
    (∀ j, t.reg j = s.reg j) ∧ (∀ c, t.byteAt c = s.byteAt c) ∧ t.os = s.os ∧ t.z = s.z ∧
      t.g = s.g ∧ t.out = s.out ∧ t.cfg = s.cfg ∧ RunKept s t)

/-- R24, R27, R204: Out, Jmp, Jeq, Jgt, Cmp and Halt change no register, memory byte or stack; of
them only Cmp changes the flags, only Out the output, and only Halt leaves Halted. -/
def Obligations.ControlFormsFrame : Prop :=
  ∀ (i : Instr) (s t : State), isControlForm i = true → exec i s = .next t →
    (∀ j, t.reg j = s.reg j) ∧ (∀ a, t.byteAt a = s.byteAt a) ∧ t.os = s.os ∧ t.cs = s.cs ∧
      t.cfg = s.cfg ∧ ((∀ p q, i ≠ .cmp p q) → t.z = s.z ∧ t.g = s.g) ∧
      ((∀ r, i ≠ .out r) → t.out = s.out) ∧ (i ≠ .halt → RunKept s t)

/-! Errors. -/

/-- R84, R192, R194 (with the spec's own decision D6 on `pc`, log entry 6): whatever a step raises, the state after it is the state before it but for
`run`; and the one other way a step ends a run is Halt, which changes only `run` and `pc`. -/
def Obligations.ErrorsChangeNothingElse : Prop :=
  ∀ s t : State, step s = .next t →
    (∀ k, t.run = .errored k → t = { s with run := .errored k }) ∧
    (t.run = .halted →
      s.byteAt s.pc = 0xFF ∧ t = { s with run := .halted, pc := s.pc + 1 })

/-- R190: each error kind is raised only by the instructions the table of kinds names, and only when
it says. -/
def Obligations.ErrorsHaveTheirCause : Prop :=
  ∀ (s t : State) (k : ErrKind), step s = .next t → t.run = .errored k → ErrorCause s k

/-- R82, R83 (with the spec's own decisions D8, D9 and D10, log entries 7 and 8): registers in operand
order and the implicit `r1` are checked first, then addresses, before
anything else; an out-of-range one raises, whatever else is wrong. -/
def Obligations.OperandsAreValidatedFirst : Prop :=
  ∀ (i : Instr) (s : State),
    ((∃ r ∈ regOperands i, s.cfg.regCount ≤ r.toNat) ∨
        ((i.opcode = .ldIdx ∨ i.opcode = .stIdx) ∧ s.cfg.regCount ≤ 1) →
      exec i s = errsWith s .invalidRegister) ∧
    ((∀ r ∈ regOperands i, r.toNat < s.cfg.regCount) →
      (i.opcode = .ldIdx ∨ i.opcode = .stIdx → 1 < s.cfg.regCount) →
      (∃ a ∈ addrOperands i, s.cfg.memSize ≤ a.toNat) →
      exec i s = errsWith s .invalidAddress)

/-- R22, R53, R82: the validation stage passes exactly the instructions whose operands exist. -/
def Obligations.ValidationAcceptsTheWellFormed : Prop :=
  ∀ (c : Config) (i : Instr), validate c i = .ok () ↔ i.wellFormed c = true

/-! Invariants and construction. -/

/-- R21, R25, R28, R30, R31, R50: every step keeps a legal state legal. -/
def Obligations.StepKeepsLegalStates : Prop :=
  ∀ s t : State, s.Inv → step s = .next t → t.Inv

/-- The state after reset, constructed with the model's own choice of configuration (log entry 1), is
legal. -/
def Obligations.ResetIsLegal : Prop := State.reset.Inv

/-- R40, R41, R221: every CORE a construction gives is legal. -/
def Obligations.ConstructionIsLegal : Prop :=
  ∀ (c : Config) (image : List Byte) (s : State), State.construct c image = some s → s.Inv

/-- When the host's construction gives a CORE, and what its memory holds. The validity conditions,
the image at address 0 and the zero fill are the spec's own decisions D2, D4 and D3 (R221, R41; log
entries 2 and 5); the stack capacities may be anything. -/
def Obligations.ConstructionChecksAndLoadsTheImage : Prop :=
  ∀ (c : Config) (image : List Byte),
    (1 ≤ c.regCount ∧ 1 ≤ c.memSize ∧ c.entry < c.memSize ∧ image.length ≤ c.memSize →
      ∃ s, State.construct c image = some s ∧
        (∀ (a : Nat) (h : a < image.length), s.byteAt a = image[a]) ∧
        (∀ a, image.length ≤ a → s.byteAt a = 0)) ∧
    (¬(1 ≤ c.regCount ∧ 1 ≤ c.memSize ∧ c.entry < c.memSize ∧ image.length ≤ c.memSize) →
      State.construct c image = none)

/-- R40: the value every piece of state takes at construction. The memory's (the image at address 0,
0x00 above it) is R41's, the spec's own decisions D4 and D3 (log entry 2); the numbers of the status
triple are its decision D7 (log entry 10); that the output channel has a trace, its decision D12
(log entry 9). -/
def Obligations.ConstructionValues : Prop :=
  ∀ (c : Config) (image : List Byte) (s : State), State.construct c image = some s →
    s.run = .running ∧ s.status = (0, 0, 0) ∧ s.pc = c.entry ∧ s.x.length = c.regCount ∧
      (∀ i, s.reg i = 0) ∧ s.os = [] ∧ s.cs = [] ∧ s.z = false ∧ s.g = false ∧
      (∀ (a : Nat) (h : a < image.length), s.byteAt a = image[a]) ∧
      (∀ a, image.length ≤ a → s.byteAt a = 0) ∧ s.out = [] ∧ s.cfg = c

/-- R34: no step changes the configuration. -/
def Obligations.ConfigurationIsImmutable : Prop :=
  ∀ s t : State, step s = .next t → t.cfg = s.cfg

/-! Whole-machine rules. -/

/-- R27: the flags are set only by Cmp, which overwrites both, and consumed only by Jeq and Jgt:
any other step from the same state with other flags does the same. -/
def Obligations.FlagsAreSetByCmpAndReadByJumps : Prop :=
  ∀ s t : State, step s = .next t →
    (s.byteAt s.pc ≠ 0x43 → t.z = s.z ∧ t.g = s.g) ∧
    (s.byteAt s.pc = 0x43 → t.run = .running →
      ∀ z g, step { s with z := z, g := g } = .next t) ∧
    (s.byteAt s.pc ≠ 0x41 → s.byteAt s.pc ≠ 0x42 →
      ∀ z g, ∃ u, step { s with z := z, g := g } = .next u ∧ { u with z := t.z, g := t.g } = t)

/-- R204 (the content of the channel is the spec's own decision D12, log entry 9): the trace is empty at construction; a step appends at most one value, only Out does, and
only when it does not fail; nothing reads the trace back. -/
def Obligations.OutputIsAppendedByOutAlone : Prop :=
  (∀ c image s, State.construct c image = some s → s.out = []) ∧
  ∀ s t : State, step s = .next t →
    ∃ e, t.out = s.out ++ e ∧
      (e = [] ∨ (s.byteAt s.pc = 0x03 ∧ t.run = .running ∧
        e = [s.reg (s.byteAt (s.pc + 1)).toNat])) ∧
      (s.byteAt s.pc = 0x03 → t.run = .running → e ≠ []) ∧
      ∀ o, step { s with out := o } = .next { t with out := o ++ e }

/-- R30, R31: only Push and Pop touch the operand stack, only Call and Ret the call stack. -/
def Obligations.StacksAreSeparate : Prop :=
  ∀ s t : State, step s = .next t →
    (s.byteAt s.pc ≠ 0x10 → s.byteAt s.pc ≠ 0x11 → t.os = s.os) ∧
    (s.byteAt s.pc ≠ 0x12 → s.byteAt s.pc ≠ 0x13 → t.cs = s.cs)

/-- R61, R150, R151: a Load returns the byte the Store before it wrote at that address. -/
def Obligations.LoadReturnsTheStoredByte : Prop :=
  ∀ (r q a : Byte) (s : State), s.Inv → r.toNat < s.cfg.regCount → q.toNat < s.cfg.regCount →
    a.toNat < s.cfg.memSize →
    ∃ t u, exec (.store r a) s = .next t ∧ exec (.load q a) t = .next u ∧
      u.reg q.toNat = s.reg r.toNat ∧ u.pc = s.pc + 6

/-- R65 (which the spec marks as its own inference and its own decision D16): a byte stored by Store
or StIdx is seen by every later fetch, starting with the very next one. Below, `seen` is memory with
the stored byte in it, and `u` is any Running state with the memory the store left, the state right
after the store among them: the step from `u` decodes the bytes of `seen`, whether the stored byte
is an opcode byte or an operand byte. The store has its full effect wherever it lands, its own bytes
included. -/
def Obligations.StoredByteIsFetchedNext : Prop :=
  ∀ (s : State) (ea : Nat), s.run = .running → s.pc + 3 ≤ s.cfg.memSize → ea < s.cfg.memSize →
    (s.byteAt (s.pc + 1)).toNat < s.cfg.regCount →
    (s.byteAt s.pc = 0x21 ∧ ea = (s.byteAt (s.pc + 2)).toNat) ∨
      (s.byteAt s.pc = 0x23 ∧ 1 < s.cfg.regCount ∧
        ea = (s.byteAt (s.pc + 2)).toNat + (s.reg 1).toNat) →
    let seen (a : Nat) : Byte := if a = ea then s.reg (s.byteAt (s.pc + 1)).toNat else s.byteAt a
    ∃ t, step s = .next t ∧ t = { s with mem := t.mem, pc := s.pc + 3 } ∧
      (∀ a, t.byteAt a = seen a) ∧
      ∀ u : State, u.run = .running → u.cfg = s.cfg → u.mem = t.mem →
        (∀ m : Opcode, seen u.pc = m.byte → u.pc + 1 + m.arity ≤ u.cfg.memSize →
          step u = exec (m.build fun k => seen (u.pc + k)) u) ∧
        (undefinedOpcode (seen u.pc) = true → u.pc < u.cfg.memSize →
          step u = errsWith u (.unknownOpcode (seen u.pc)))

/-- R140 to R143: Push then Pop moves a register and leaves the stack as it was; a Ret that finds
the call stack a Call left restores the address after the Call exactly. -/
def Obligations.StackRoundTrips : Prop :=
  (∀ (r q : Byte) (s : State), s.Inv → r.toNat < s.cfg.regCount → q.toNat < s.cfg.regCount →
    s.os.length < s.cfg.stackCap →
    ∃ t u, exec (.push r) s = .next t ∧ exec (.pop q) t = .next u ∧
      u.reg q.toNat = s.reg r.toNat ∧ (∀ j, j ≠ q.toNat → u.reg j = s.reg j) ∧ u.os = s.os) ∧
  (∀ (a : Byte) (s : State), a.toNat < s.cfg.memSize → s.cs.length < s.cfg.callStackCap →
    ∃ t, exec (.call a) s = .next t ∧ t.pc = a.toNat ∧
      ∀ u : State, u.cs = t.cs →
        ∃ v, exec .ret u = .next v ∧ v.pc = s.pc + 2 ∧ v.cs = s.cs)

/-- `run()` repeats the step while Running and returns the terminal state it reaches: a step is the
first of a run, a terminal CORE's run returns it as it is, and a limit of `n` steps taken up again
goes on where it stopped; a run that returns ends Halted or Errored, in one state only. A Jmp to
itself never returns and leaves the CORE Running at any limit, with no state change. R87, R208 and
R170 say this in prose; that a run is a number of steps under a limit, and what `run()` returns a
relation, is the model's choice (log entry 16). -/
def Obligations.RunRepeatsTheStep : Prop :=
  (∀ s t : State, step s = .next t →
    (∀ n, s.runFor (n + 1) = t.runFor n) ∧ ∀ u, s.RunsTo u ↔ t.RunsTo u) ∧
  (∀ s : State, s.run ≠ .running → (∀ n, s.runFor n = s) ∧ ∀ u, s.RunsTo u ↔ u = s) ∧
  (∀ s : State, s.runFor 0 = s) ∧
  (∀ (n m : Nat) (s : State), s.runFor (n + m) = (s.runFor n).runFor m) ∧
  (∀ s u : State, s.RunsTo u →
    (u.run = .halted ∨ ∃ k, u.run = .errored k) ∧ ∀ v, s.RunsTo v → v = u) ∧
  (∀ s : State, s.run = .running → s.byteAt s.pc = 0x40 → s.pc + 2 ≤ s.cfg.memSize →
    (s.byteAt (s.pc + 1)).toNat = s.pc →
    (∀ n, s.runFor n = s) ∧ ∀ u, ¬ s.RunsTo u)

/-- The status triple of every run state, R33 and R190; the numbers are the spec's own decision D7
(log entry 10). -/
def Obligations.StatusCodes : Prop :=
  ∀ s : State,
    (s.run = .running → s.status = (0, 0, 0)) ∧
    (s.run = .halted → s.status = (1, 0, 0)) ∧
    (s.run = .errored .invalidRegister → s.status = (2, 1, 0)) ∧
    (s.run = .errored .invalidAddress → s.status = (2, 2, 0)) ∧
    (s.run = .errored .stackOverflow → s.status = (2, 3, 0)) ∧
    (s.run = .errored .stackUnderflow → s.status = (2, 4, 0)) ∧
    (s.run = .errored .callStackOverflow → s.status = (2, 5, 0)) ∧
    (s.run = .errored .callStackUnderflow → s.status = (2, 6, 0)) ∧
    (s.run = .errored .divisionByZero → s.status = (2, 7, 0)) ∧
    (∀ op, s.run = .errored (.unknownOpcode op) → s.status = (2, 8, op))

/-! The assembler. -/

open Sys2Proof.Assembler in
/-- R100, R111: a source assembles to `bytes` exactly when pass 1 accepts it and `bytes` are the
concatenated encodings of instructions, one for each instruction line and in line order, each with
the opcode its line's mnemonic names and, as operand bytes in the table's order, what the line's
operands resolve to (R112) under the labels of pass 1. How a line is split into its mnemonic and
operands, and what labels may name, is the spec's own decisions D21 to D27 (log entries 11 and 15). -/
def Obligations.AssemblerEmitsInstructions : Prop :=
  ∀ (source : Text) (bytes : List Byte), assemble source = .ok bytes ↔
    ∃ (size : Nat) (labels : Labels) (instrs : List Instr),
      pass1 1 0 [] ((physicalLines source).map classify) = .ok (size, labels) ∧
        bytes = instrs.flatMap encode ∧
        List.Forall₂ (LineGives labels) instrs
          (((physicalLines source).map classify).filterMap instrLine)

open Sys2Proof.Assembler in
/-- R109, R114: the output's length is pass 1's final offset, the sum of the lines' sizes, and each
label's value is the sum of the sizes before its definition. -/
def Obligations.OffsetsMatchTheOutput : Prop :=
  ∀ (ls : List Line) (bytes : List Byte), assembleLines ls = .ok bytes →
    bytes.length = (ls.map lineSize).sum ∧
    ∃ labels, pass1 1 0 [] ls = .ok (bytes.length, labels) ∧
      ∀ before name after, ls = before ++ .label name :: after →
        labelOffset labels name = some (before.map lineSize).sum

open Sys2Proof.Assembler in
/-- R102 (the comment character is the spec's own decision D22, log entry 11): a comment changes nothing of its line, and a blank line nothing of the output. -/
def Obligations.CommentsAndBlankLinesEmitNothing : Prop :=
  (∀ line comment : Text, classify (line ++ ';' :: comment) = classify line) ∧
  (∀ (before after : List Line) (bytes : List Byte),
    assembleLines (before ++ .blank :: after) = .ok bytes ↔
      assembleLines (before ++ after) = .ok bytes)

open Sys2Proof.Assembler in
/-- R113 (the order of errors is the spec's own decision D28, log entry 11): an unresolved label is reported only when pass 1 found no error anywhere: every
instruction line names an instruction, no label is defined twice, and that one is defined nowhere. -/
def Obligations.UnresolvedLabelIsUndefined : Prop :=
  ∀ (ls : List Line) (name : Text) (n : Nat),
    assembleLines ls = .error (.unresolvedLabel name n) →
      Line.label name ∉ ls ∧
      (∀ mnemonic operands, Line.instr mnemonic operands ∈ ls →
        ∃ m, lookupMnemonic mnemonic = some m) ∧
      (∀ before other after, ls = before ++ .label other :: after → Line.label other ∉ after)

open Sys2Proof.Assembler in
/-- R112: the resolution of one operand, case by case (a label past 255 is the spec's own decision
D27, log entry 11). -/
def Obligations.OperandResolution : Prop :=
  ∀ (labels : Labels) (n : Nat) (kind : OperandKind),
    resolve labels n kind .malformed = .error (.syntaxError n .badOperand) ∧
    (∀ name, kind ≠ .addr →
      resolve labels n kind (.ident name) = .error (.syntaxError n .labelNotAllowed)) ∧
    (∀ name, labelOffset labels name = none →
      resolve labels n .addr (.ident name) = .error (.unresolvedLabel name n)) ∧
    (∀ name v, labelOffset labels name = some v → 255 < v →
      resolve labels n .addr (.ident name) = .error (.operandOverflow n)) ∧
    (∀ name v, labelOffset labels name = some v → v ≤ 255 →
      ∃ b : Byte, resolve labels n .addr (.ident name) = .ok b ∧ b.toNat = v) ∧
    (∀ v, 255 < v → resolve labels n kind (.literal v) = .error (.operandOverflow n)) ∧
    (∀ v, v ≤ 255 → ∃ b : Byte, resolve labels n kind (.literal v) = .ok b ∧ b.toNat = v)

open Sys2Proof.Assembler in
/-- R116: the spec's encoding examples. -/
def Obligations.AssemblerExamples : Prop :=
  assemble ['M', 'o', 'v', ' ', '0', ',', ' ', '5'] = .ok [0x04, 0x00, 0x05] ∧
  assemble ['O', 'u', 't', ' ', '0'] = .ok [0x03, 0x00] ∧
  assemble ['H', 'a', 'l', 't'] = .ok [0xFF] ∧
  assemble ['J', 'm', 'p', ' ', '0', 'x', '1', '0'] = .ok [0x40, 0x10] ∧
  assemble ['L', 'o', 'a', 'd', ' ', '2', ',', ' ', '2', '5', '5'] = .ok [0x20, 0x02, 0xFF] ∧
  assemble ['L', 'o', 'a', 'd', ' ', '2', ',', ' ', '2', '5', '6'] =
    .error (.operandOverflow 1) ∧
  assemble ['M', 'o', 'v', ' ', '0', ',', ' ', 'l', 'o', 'o', 'p'] =
    .error (.syntaxError 1 .labelNotAllowed) ∧
  assemble ['P', 'u', 's', 'h', ' ', '1', ',', ' ', '2'] = .error (.syntaxError 1 .operandCount)

open Sys2Proof.Assembler in
/-- R106: every mnemonic of the table names its instruction, whatever the letter case (the spec's own
decision D23, log entry 11). -/
def Obligations.MnemonicsIgnoreCase : Prop :=
  (∀ m : Opcode, lookupMnemonic m.row.name = some m) ∧
  (∀ token : Text, lookupMnemonic (token.map Char.toUpper) = lookupMnemonic token ∧
    lookupMnemonic (token.map Char.toLower) = lookupMnemonic token)
end

