-- ==== Sys2Proof/Laws/Decode.lean ====
section
/-! SUPPORT. The laws of the opcode table and the decoder. -/

namespace Sys2Proof

/-- Decoding a table byte gives its row. -/
@[simp] theorem decodeByte_byte (m : Opcode) : decodeByte m.byte = .known m := by
  cases m <;> rfl

/-- A byte that decodes to a row is that row's byte. -/
theorem byte_of_decodeByte {b : Byte} {m : Opcode} (h : decodeByte b = .known m) : m.byte = b := by
  unfold decodeByte at h
  split at h
  · next m' hm =>
    cases h
    simpa using List.find?_some hm
  · cases h

/-- A byte that decodes as unknown carries itself, and is no row's byte. -/
theorem unknown_of_decodeByte {b c : Byte} (h : decodeByte b = .unknown c) :
    c = b ∧ ∀ m : Opcode, m.byte ≠ b := by
  unfold decodeByte at h
  split at h
  · cases h
  · next hn =>
    cases h
    refine ⟨rfl, fun m => ?_⟩
    have := List.find?_eq_none.1 hn m (by cases m <;> decide)
    simpa using this

/-- An instruction has as many operand bytes as its opcode's arity. -/
@[simp] theorem length_operandBytes (i : Instr) : i.operandBytes.length = i.opcode.arity := by
  cases i <;> rfl

/-- Building from an instruction's own operand bytes gives it back. -/
theorem build_operandBytes (i : Instr) (rest : List Byte) :
    i.opcode.build (fun k => (i.operandBytes ++ rest).getD (k - 1) 0) = i := by
  cases i <;> rfl

/-- The opcode of a built instruction. -/
@[simp] theorem opcode_build (m : Opcode) (f : Nat → Byte) : (m.build f).opcode = m := by
  cases m <;> rfl

end Sys2Proof
end

