-- ==== Sys2Proof/Laws/Assembler.lean ====
section
/-! SUPPORT. What the assembler's line-level functions can answer. -/

namespace Sys2Proof.Assembler

/-- A value passes the range check exactly when it fits a byte. -/
theorem fitByte_ok {n v : Nat} {b : Byte} (h : fitByte n v = .ok b) :
    v ≤ 255 ∧ b = BitVec.ofNat 8 v := by
  unfold fitByte at h
  split at h
  · cases h
  · next hv => cases h; exact ⟨Nat.not_lt.1 hv, rfl⟩

/-- Resolving a line's operands gives one byte for each. -/
theorem resolveAll_length {labels : Labels} {n : Nat} {ops : List (OperandKind × Operand)}
    {vs : List Byte} (h : resolveAll labels n ops = .ok vs) : vs.length = ops.length := by
  induction ops generalizing vs with
  | nil => cases h; rfl
  | cons o ops ih =>
    obtain ⟨kind, t⟩ := o
    simp only [resolveAll] at h
    cases hv : resolve labels n kind t with
    | error e => rw [hv] at h; cases h
    | ok v =>
      cases hr : resolveAll labels n ops with
      | error e => rw [hv, hr] at h; cases h
      | ok ws =>
        rw [hv, hr] at h
        cases h
        simp [ih hr]

/-- Resolving a line's operands succeeds exactly when each of them does, and gives their values in
order. -/
theorem resolveAll_ok_iff {labels : Labels} {n : Nat} {ops : List (OperandKind × Operand)}
    {vs : List Byte} :
    resolveAll labels n ops = .ok vs ↔
      ops.map (fun o => resolve labels n o.1 o.2) = vs.map .ok := by
  induction ops generalizing vs with
  | nil => cases vs <;> simp [resolveAll]
  | cons o ops ih =>
    obtain ⟨kind, t⟩ := o
    simp only [resolveAll, List.map_cons]
    cases resolve labels n kind t with
    | error e => cases vs <;> simp [bind, Except.bind]
    | ok v =>
      cases hr : resolveAll labels n ops with
      | error e =>
        cases vs with
        | nil => simp [bind, Except.bind]
        | cons w ws => simpa [bind, Except.bind] using fun _ h => nomatch hr.symm.trans (ih.2 h)
      | ok us =>
        cases vs with
        | nil => simp [bind, Except.bind, pure, Except.pure]
        | cons w ws => simp [bind, Except.bind, pure, Except.pure, ← ih, hr]

/-- A line number shows only in an error: an operand that resolves on one line resolves alike on
any. -/
theorem resolve_ok_line {labels : Labels} {n n' : Nat} {kind : OperandKind} {t : Operand} {b : Byte}
    (h : resolve labels n kind t = .ok b) : resolve labels n' kind t = .ok b := by
  have hf : ∀ v, fitByte n v = .ok b → fitByte n' v = .ok b := by
    intro v hv
    obtain ⟨hle, rfl⟩ := fitByte_ok hv
    exact if_neg (Nat.not_lt.2 hle)
  cases t with
  | malformed => cases h
  | literal v => exact hf v h
  | ident name =>
    simp only [resolve] at h ⊢
    split
    · next hk =>
      rw [if_pos hk] at h
      cases hl : labelOffset labels name with
      | none => rw [hl] at h; cases h
      | some v => rw [hl] at h; exact hf v h
    · next hk => rw [if_neg hk] at h; cases h

/-- An instruction line that emits bytes names an instruction, and emits its opcode byte and one
byte for each operand of its table row. -/
theorem emitLine_ok {labels : Labels} {n : Nat} {mnemonic operands : Text} {bytes : List Byte}
    (h : emitLine labels n mnemonic operands = .ok bytes) :
    ∃ m vals, lookupMnemonic mnemonic = some m ∧ bytes = m.byte :: vals ∧
      vals.length = m.arity ∧
      resolveAll labels n (m.kinds.zip (operandList operands)) = .ok vals := by
  unfold emitLine at h
  split at h
  · cases h
  · next m hm =>
    dsimp only at h
    split at h
    · cases h
    · next hc =>
      cases hr : resolveAll labels n (m.kinds.zip (operandList operands)) with
      | error e => rw [hr] at h; cases h
      | ok vals =>
        rw [hr] at h
        cases h
        refine ⟨m, vals, hm, rfl, ?_, hr⟩
        have := resolveAll_length hr
        simp only [List.length_zip] at this
        simp only [Opcode.arity] at hc ⊢
        omega

end Sys2Proof.Assembler
end

