-- ==== Sys2Proof/Laws/Memory.lean ====
section
/-! SUPPORT. The laws of memory: what a read sees after a write, and that every memory operation
keeps the canonical form and the bound on addresses. -/

namespace Sys2Proof.Machine

@[simp] theorem Memory.read_nil (a : Nat) : Memory.read [] a = Config.memFill := rfl

theorem Memory.read_cons (b : Nat) (v : Byte) (m : Memory) (a : Nat) :
    Memory.read ((b, v) :: m) a = if b = a then v else Memory.read m a := rfl

@[simp] theorem Memory.erase_nil (a : Nat) : Memory.erase [] a = [] := rfl

theorem Memory.erase_cons (b : Nat) (v : Byte) (m : Memory) (a : Nat) :
    Memory.erase ((b, v) :: m) a =
      if b = a then Memory.erase m a else (b, v) :: Memory.erase m a := by
  by_cases h : b = a <;> simp [Memory.erase, h]

@[simp] theorem Memory.read_erase_same (m : Memory) (a : Nat) :
    (m.erase a).read a = Config.memFill := by
  induction m with
  | nil => rfl
  | cons c m ih =>
    obtain ⟨b, v⟩ := c
    by_cases h : b = a <;> simp [Memory.erase_cons, Memory.read_cons, h, ih]

theorem Memory.read_erase_other (m : Memory) {a c : Nat} (h : c ≠ a) :
    (m.erase a).read c = m.read c := by
  induction m with
  | nil => rfl
  | cons d m ih =>
    obtain ⟨b, v⟩ := d
    by_cases hb : b = a
    · have hc : b ≠ c := by omega
      rw [Memory.erase_cons, if_pos hb, ih, Memory.read_cons, if_neg hc]
    · simp [Memory.erase_cons, Memory.read_cons, hb, ih]

theorem Memory.read_insert_same {m : Memory} {a : Nat} (v : Byte) (h : ∀ c ∈ m, c.1 ≠ a) :
    (m.insert a v).read a = v := by
  induction m with
  | nil => simp [Memory.insert, Memory.read_cons]
  | cons d m ih =>
    obtain ⟨b, w⟩ := d
    have hb : b ≠ a := h _ (List.mem_cons_self ..)
    have hm := ih (fun c hc => h c (List.mem_cons_of_mem _ hc))
    simp only [Memory.insert]
    split
    · simp [Memory.read_cons]
    · rw [Memory.read_cons, if_neg hb, hm]

theorem Memory.read_insert_other (m : Memory) {a c : Nat} (v : Byte) (h : c ≠ a) :
    (m.insert a v).read c = m.read c := by
  induction m with
  | nil => simp [Memory.insert, Memory.read_cons, Ne.symm h]
  | cons d m ih =>
    obtain ⟨b, w⟩ := d
    simp only [Memory.insert]
    split <;> simp [Memory.read_cons, Ne.symm h, ih]

theorem Memory.fst_ne_of_mem_erase {m : Memory} {a : Nat} {c : Host.Cell} (h : c ∈ m.erase a) :
    c.1 ≠ a := by
  simpa using (List.mem_filter.1 h).2

theorem Memory.mem_of_mem_erase {m : Memory} {a : Nat} {c : Host.Cell} (h : c ∈ m.erase a) :
    c ∈ m := (List.mem_filter.1 h).1

theorem Memory.mem_insert {m : Memory} {a : Nat} {v : Byte} {c : Host.Cell} :
    c ∈ m.insert a v ↔ c = (a, v) ∨ c ∈ m := by
  induction m with
  | nil => simp [Memory.insert]
  | cons d m ih =>
    obtain ⟨b, w⟩ := d
    simp only [Memory.insert]
    split
    · simp
    · simp only [List.mem_cons, ih]; tauto

/-- A read of the address just written gives the byte written. -/
@[simp] theorem Memory.read_write_same (m : Memory) (a : Nat) (v : Byte) :
    (m.write a v).read a = v := by
  unfold Memory.write
  split
  · next h => rw [Memory.read_erase_same, h]
  · exact Memory.read_insert_same v fun _ => Memory.fst_ne_of_mem_erase

/-- A write leaves every other address alone. -/
theorem Memory.read_write_other (m : Memory) {a c : Nat} (v : Byte) (h : c ≠ a) :
    (m.write a v).read c = m.read c := by
  unfold Memory.write
  split
  · exact Memory.read_erase_other m h
  · rw [Memory.read_insert_other _ v h, Memory.read_erase_other m h]

theorem Memory.read_write (m : Memory) (a c : Nat) (v : Byte) :
    (m.write a v).read c = if c = a then v else m.read c := by
  split
  · next h => rw [h, Memory.read_write_same]
  · next h => exact Memory.read_write_other m v h

/-! The canonical form. -/

theorem Memory.wf_nil : Memory.wf [] := by simp [Memory.wf]

theorem Memory.wf_erase {m : Memory} (h : m.wf) (a : Nat) : (m.erase a).wf :=
  ⟨h.1.filter _, fun c hc => h.2 c (Memory.mem_of_mem_erase hc)⟩

theorem Memory.wf_insert {m : Memory} (h : m.wf) {a : Nat} {v : Byte} (hv : v ≠ Config.memFill)
    (ha : ∀ c ∈ m, c.1 ≠ a) : (m.insert a v).wf := by
  refine ⟨?_, fun c hc => ?_⟩
  · have hp := h.1
    clear h
    induction m with
    | nil => simp [Memory.insert]
    | cons d m ih =>
      obtain ⟨b, w⟩ := d
      obtain ⟨hb, hm⟩ := List.pairwise_cons.1 hp
      simp only [Memory.insert]
      split
      · next hab =>
        refine List.pairwise_cons.2 ⟨fun c hc => ?_, hp⟩
        rcases List.mem_cons.1 hc with rfl | hc
        · exact hab
        · exact Nat.lt_trans hab (hb c hc)
      · next hab =>
        have hne : b ≠ a := ha _ (List.mem_cons_self ..)
        refine List.pairwise_cons.2
          ⟨fun c hc => ?_, ih (fun c hc => ha c (List.mem_cons_of_mem _ hc)) hm⟩
        rcases Memory.mem_insert.1 hc with rfl | hc
        · show b < a
          omega
        · exact hb c hc
  · rcases Memory.mem_insert.1 hc with rfl | hc
    · exact hv
    · exact h.2 c hc

/-- A write keeps the canonical form. -/
theorem Memory.wf_write {m : Memory} (h : m.wf) (a : Nat) (v : Byte) : (m.write a v).wf := by
  unfold Memory.write
  split
  · exact Memory.wf_erase h a
  · next hv => exact Memory.wf_insert (Memory.wf_erase h a) hv fun _ => Memory.fst_ne_of_mem_erase

/-- A write below a bound lists no address at or past it. -/
theorem Memory.lt_of_mem_write {m : Memory} {n a : Nat} {v : Byte} (h : ∀ c ∈ m, c.1 < n)
    (ha : a < n) : ∀ c ∈ m.write a v, c.1 < n := by
  intro c hc
  unfold Memory.write at hc
  split at hc
  · exact h c (Memory.mem_of_mem_erase hc)
  · rcases Memory.mem_insert.1 hc with rfl | hc
    · exact ha
    · exact h c (Memory.mem_of_mem_erase hc)

/-- Placing bytes keeps the canonical form. -/
theorem Memory.wf_writeBytes {m : Memory} (h : m.wf) (n a : Nat) (bytes : List Byte) :
    (m.writeBytes n a bytes).wf := by
  induction bytes generalizing m a with
  | nil => exact h
  | cons v vs ih =>
    unfold Memory.writeBytes
    split
    · exact ih (Memory.wf_write h a v) (a + 1)
    · exact ih h (a + 1)

/-- Placing bytes lists no address at or past the bound. -/
theorem Memory.lt_of_mem_writeBytes {m : Memory} {n : Nat} (h : ∀ c ∈ m, c.1 < n) (a : Nat)
    (bytes : List Byte) : ∀ c ∈ m.writeBytes n a bytes, c.1 < n := by
  induction bytes generalizing m a with
  | nil => exact h
  | cons v vs ih =>
    unfold Memory.writeBytes
    split
    · next ha => exact ih (Memory.lt_of_mem_write h ha) (a + 1)
    · exact ih h (a + 1)

/-- The memory of `State.reset` has the canonical form. -/
theorem State.reset_mem_wf : State.reset.mem.wf := Memory.wf_nil

end Sys2Proof.Machine
end

