-- ==== Sys2Proof/Laws/State.lean ====
section
/-! SUPPORT. One lemma per field per state update, so that no proof unfolds a record update. -/

namespace Sys2Proof.Machine

variable (s : State)

/-! `State.setReg`. -/

@[simp] theorem State.cfg_setReg (i : Nat) (v : Byte) : (s.setReg i v).cfg = s.cfg := rfl
@[simp] theorem State.run_setReg (i : Nat) (v : Byte) : (s.setReg i v).run = s.run := rfl
@[simp] theorem State.pc_setReg (i : Nat) (v : Byte) : (s.setReg i v).pc = s.pc := rfl
@[simp] theorem State.x_setReg (i : Nat) (v : Byte) : (s.setReg i v).x = s.x.set i v := rfl
@[simp] theorem State.mem_setReg (i : Nat) (v : Byte) : (s.setReg i v).mem = s.mem := rfl
@[simp] theorem State.os_setReg (i : Nat) (v : Byte) : (s.setReg i v).os = s.os := rfl
@[simp] theorem State.cs_setReg (i : Nat) (v : Byte) : (s.setReg i v).cs = s.cs := rfl
@[simp] theorem State.z_setReg (i : Nat) (v : Byte) : (s.setReg i v).z = s.z := rfl
@[simp] theorem State.g_setReg (i : Nat) (v : Byte) : (s.setReg i v).g = s.g := rfl
@[simp] theorem State.out_setReg (i : Nat) (v : Byte) : (s.setReg i v).out = s.out := rfl

/-! `State.setByte`. -/

@[simp] theorem State.cfg_setByte (a : Nat) (v : Byte) : (s.setByte a v).cfg = s.cfg := rfl
@[simp] theorem State.run_setByte (a : Nat) (v : Byte) : (s.setByte a v).run = s.run := rfl
@[simp] theorem State.pc_setByte (a : Nat) (v : Byte) : (s.setByte a v).pc = s.pc := rfl
@[simp] theorem State.x_setByte (a : Nat) (v : Byte) : (s.setByte a v).x = s.x := rfl
@[simp] theorem State.mem_setByte (a : Nat) (v : Byte) : (s.setByte a v).mem = s.mem.write a v := rfl
@[simp] theorem State.os_setByte (a : Nat) (v : Byte) : (s.setByte a v).os = s.os := rfl
@[simp] theorem State.cs_setByte (a : Nat) (v : Byte) : (s.setByte a v).cs = s.cs := rfl
@[simp] theorem State.z_setByte (a : Nat) (v : Byte) : (s.setByte a v).z = s.z := rfl
@[simp] theorem State.g_setByte (a : Nat) (v : Byte) : (s.setByte a v).g = s.g := rfl
@[simp] theorem State.out_setByte (a : Nat) (v : Byte) : (s.setByte a v).out = s.out := rfl

/-! `State.setPc`. -/

@[simp] theorem State.cfg_setPc (n : Nat) : (s.setPc n).cfg = s.cfg := rfl
@[simp] theorem State.run_setPc (n : Nat) : (s.setPc n).run = s.run := rfl
@[simp] theorem State.pc_setPc (n : Nat) : (s.setPc n).pc = n := rfl
@[simp] theorem State.x_setPc (n : Nat) : (s.setPc n).x = s.x := rfl
@[simp] theorem State.mem_setPc (n : Nat) : (s.setPc n).mem = s.mem := rfl
@[simp] theorem State.os_setPc (n : Nat) : (s.setPc n).os = s.os := rfl
@[simp] theorem State.cs_setPc (n : Nat) : (s.setPc n).cs = s.cs := rfl
@[simp] theorem State.z_setPc (n : Nat) : (s.setPc n).z = s.z := rfl
@[simp] theorem State.g_setPc (n : Nat) : (s.setPc n).g = s.g := rfl
@[simp] theorem State.out_setPc (n : Nat) : (s.setPc n).out = s.out := rfl

/-! `State.setFlags`. -/

@[simp] theorem State.cfg_setFlags (z g : Bool) : (s.setFlags z g).cfg = s.cfg := rfl
@[simp] theorem State.run_setFlags (z g : Bool) : (s.setFlags z g).run = s.run := rfl
@[simp] theorem State.pc_setFlags (z g : Bool) : (s.setFlags z g).pc = s.pc := rfl
@[simp] theorem State.x_setFlags (z g : Bool) : (s.setFlags z g).x = s.x := rfl
@[simp] theorem State.mem_setFlags (z g : Bool) : (s.setFlags z g).mem = s.mem := rfl
@[simp] theorem State.os_setFlags (z g : Bool) : (s.setFlags z g).os = s.os := rfl
@[simp] theorem State.cs_setFlags (z g : Bool) : (s.setFlags z g).cs = s.cs := rfl
@[simp] theorem State.z_setFlags (z g : Bool) : (s.setFlags z g).z = z := rfl
@[simp] theorem State.g_setFlags (z g : Bool) : (s.setFlags z g).g = g := rfl
@[simp] theorem State.out_setFlags (z g : Bool) : (s.setFlags z g).out = s.out := rfl

/-! `State.setOs`. -/

@[simp] theorem State.cfg_setOs (os : List Byte) : (s.setOs os).cfg = s.cfg := rfl
@[simp] theorem State.run_setOs (os : List Byte) : (s.setOs os).run = s.run := rfl
@[simp] theorem State.pc_setOs (os : List Byte) : (s.setOs os).pc = s.pc := rfl
@[simp] theorem State.x_setOs (os : List Byte) : (s.setOs os).x = s.x := rfl
@[simp] theorem State.mem_setOs (os : List Byte) : (s.setOs os).mem = s.mem := rfl
@[simp] theorem State.os_setOs (os : List Byte) : (s.setOs os).os = os := rfl
@[simp] theorem State.cs_setOs (os : List Byte) : (s.setOs os).cs = s.cs := rfl
@[simp] theorem State.z_setOs (os : List Byte) : (s.setOs os).z = s.z := rfl
@[simp] theorem State.g_setOs (os : List Byte) : (s.setOs os).g = s.g := rfl
@[simp] theorem State.out_setOs (os : List Byte) : (s.setOs os).out = s.out := rfl

/-! `State.setCs`. -/

@[simp] theorem State.cfg_setCs (cs : List Nat) : (s.setCs cs).cfg = s.cfg := rfl
@[simp] theorem State.run_setCs (cs : List Nat) : (s.setCs cs).run = s.run := rfl
@[simp] theorem State.pc_setCs (cs : List Nat) : (s.setCs cs).pc = s.pc := rfl
@[simp] theorem State.x_setCs (cs : List Nat) : (s.setCs cs).x = s.x := rfl
@[simp] theorem State.mem_setCs (cs : List Nat) : (s.setCs cs).mem = s.mem := rfl
@[simp] theorem State.os_setCs (cs : List Nat) : (s.setCs cs).os = s.os := rfl
@[simp] theorem State.cs_setCs (cs : List Nat) : (s.setCs cs).cs = cs := rfl
@[simp] theorem State.z_setCs (cs : List Nat) : (s.setCs cs).z = s.z := rfl
@[simp] theorem State.g_setCs (cs : List Nat) : (s.setCs cs).g = s.g := rfl
@[simp] theorem State.out_setCs (cs : List Nat) : (s.setCs cs).out = s.out := rfl

/-! `State.emit`. -/

@[simp] theorem State.cfg_emit (v : Byte) : (s.emit v).cfg = s.cfg := rfl
@[simp] theorem State.run_emit (v : Byte) : (s.emit v).run = s.run := rfl
@[simp] theorem State.pc_emit (v : Byte) : (s.emit v).pc = s.pc := rfl
@[simp] theorem State.x_emit (v : Byte) : (s.emit v).x = s.x := rfl
@[simp] theorem State.mem_emit (v : Byte) : (s.emit v).mem = s.mem := rfl
@[simp] theorem State.os_emit (v : Byte) : (s.emit v).os = s.os := rfl
@[simp] theorem State.cs_emit (v : Byte) : (s.emit v).cs = s.cs := rfl
@[simp] theorem State.z_emit (v : Byte) : (s.emit v).z = s.z := rfl
@[simp] theorem State.g_emit (v : Byte) : (s.emit v).g = s.g := rfl
@[simp] theorem State.out_emit (v : Byte) : (s.emit v).out = s.out ++ [v] := rfl

/-! `State.setRun`. -/

@[simp] theorem State.cfg_setRun (r : RunState) : (s.setRun r).cfg = s.cfg := rfl
@[simp] theorem State.run_setRun (r : RunState) : (s.setRun r).run = r := rfl
@[simp] theorem State.pc_setRun (r : RunState) : (s.setRun r).pc = s.pc := rfl
@[simp] theorem State.x_setRun (r : RunState) : (s.setRun r).x = s.x := rfl
@[simp] theorem State.mem_setRun (r : RunState) : (s.setRun r).mem = s.mem := rfl
@[simp] theorem State.os_setRun (r : RunState) : (s.setRun r).os = s.os := rfl
@[simp] theorem State.cs_setRun (r : RunState) : (s.setRun r).cs = s.cs := rfl
@[simp] theorem State.z_setRun (r : RunState) : (s.setRun r).z = s.z := rfl
@[simp] theorem State.g_setRun (r : RunState) : (s.setRun r).g = s.g := rfl
@[simp] theorem State.out_setRun (r : RunState) : (s.setRun r).out = s.out := rfl

/-! `State.raise`. -/

@[simp] theorem State.cfg_raise (k : ErrKind) : (s.raise k).cfg = s.cfg := rfl
@[simp] theorem State.run_raise (k : ErrKind) : (s.raise k).run = .errored k := rfl
@[simp] theorem State.pc_raise (k : ErrKind) : (s.raise k).pc = s.pc := rfl
@[simp] theorem State.x_raise (k : ErrKind) : (s.raise k).x = s.x := rfl
@[simp] theorem State.mem_raise (k : ErrKind) : (s.raise k).mem = s.mem := rfl
@[simp] theorem State.os_raise (k : ErrKind) : (s.raise k).os = s.os := rfl
@[simp] theorem State.cs_raise (k : ErrKind) : (s.raise k).cs = s.cs := rfl
@[simp] theorem State.z_raise (k : ErrKind) : (s.raise k).z = s.z := rfl
@[simp] theorem State.g_raise (k : ErrKind) : (s.raise k).g = s.g := rfl
@[simp] theorem State.out_raise (k : ErrKind) : (s.raise k).out = s.out := rfl

/-! `State.placeAtPc`. -/

@[simp] theorem State.cfg_placeAtPc (bytes : List Byte) : (s.placeAtPc bytes).cfg = s.cfg := rfl
@[simp] theorem State.run_placeAtPc (bytes : List Byte) : (s.placeAtPc bytes).run = s.run := rfl
@[simp] theorem State.pc_placeAtPc (bytes : List Byte) : (s.placeAtPc bytes).pc = s.pc := rfl
@[simp] theorem State.x_placeAtPc (bytes : List Byte) : (s.placeAtPc bytes).x = s.x := rfl
@[simp] theorem State.mem_placeAtPc (bytes : List Byte) : (s.placeAtPc bytes).mem = s.mem.writeBytes s.cfg.memSize s.pc bytes := rfl
@[simp] theorem State.os_placeAtPc (bytes : List Byte) : (s.placeAtPc bytes).os = s.os := rfl
@[simp] theorem State.cs_placeAtPc (bytes : List Byte) : (s.placeAtPc bytes).cs = s.cs := rfl
@[simp] theorem State.z_placeAtPc (bytes : List Byte) : (s.placeAtPc bytes).z = s.z := rfl
@[simp] theorem State.g_placeAtPc (bytes : List Byte) : (s.placeAtPc bytes).g = s.g := rfl
@[simp] theorem State.out_placeAtPc (bytes : List Byte) : (s.placeAtPc bytes).out = s.out := rfl

/-! The finishing updates of an instruction. -/

@[simp] theorem finishReg_cfg (i : Instr) (r v : Byte) : (finishReg i s r v).cfg = s.cfg := rfl
@[simp] theorem finishReg_run (i : Instr) (r v : Byte) : (finishReg i s r v).run = s.run := rfl
@[simp] theorem finishReg_pc (i : Instr) (r v : Byte) : (finishReg i s r v).pc = npcOf i s := rfl
@[simp] theorem finishReg_x (i : Instr) (r v : Byte) : (finishReg i s r v).x = s.x.set r.toNat v := rfl
@[simp] theorem finishReg_mem (i : Instr) (r v : Byte) : (finishReg i s r v).mem = s.mem := rfl
@[simp] theorem finishReg_os (i : Instr) (r v : Byte) : (finishReg i s r v).os = s.os := rfl
@[simp] theorem finishReg_cs (i : Instr) (r v : Byte) : (finishReg i s r v).cs = s.cs := rfl
@[simp] theorem finishReg_z (i : Instr) (r v : Byte) : (finishReg i s r v).z = s.z := rfl
@[simp] theorem finishReg_g (i : Instr) (r v : Byte) : (finishReg i s r v).g = s.g := rfl
@[simp] theorem finishReg_out (i : Instr) (r v : Byte) : (finishReg i s r v).out = s.out := rfl

@[simp] theorem finishStore_cfg (i : Instr) (a : Nat) (v : Byte) : (finishStore i s a v).cfg = s.cfg := rfl
@[simp] theorem finishStore_run (i : Instr) (a : Nat) (v : Byte) : (finishStore i s a v).run = s.run := rfl
@[simp] theorem finishStore_pc (i : Instr) (a : Nat) (v : Byte) : (finishStore i s a v).pc = npcOf i s := rfl
@[simp] theorem finishStore_x (i : Instr) (a : Nat) (v : Byte) : (finishStore i s a v).x = s.x := rfl
@[simp] theorem finishStore_mem (i : Instr) (a : Nat) (v : Byte) : (finishStore i s a v).mem = s.mem.write a v := rfl
@[simp] theorem finishStore_os (i : Instr) (a : Nat) (v : Byte) : (finishStore i s a v).os = s.os := rfl
@[simp] theorem finishStore_cs (i : Instr) (a : Nat) (v : Byte) : (finishStore i s a v).cs = s.cs := rfl
@[simp] theorem finishStore_z (i : Instr) (a : Nat) (v : Byte) : (finishStore i s a v).z = s.z := rfl
@[simp] theorem finishStore_g (i : Instr) (a : Nat) (v : Byte) : (finishStore i s a v).g = s.g := rfl
@[simp] theorem finishStore_out (i : Instr) (a : Nat) (v : Byte) : (finishStore i s a v).out = s.out := rfl

end Sys2Proof.Machine
end

