-- ==== Sys2Proof/Laws/Ops.lean ====
section
/-! SUPPORT. What the shared operations answer: registers and bytes of a state, the two stacks,
raising and settling. -/

namespace Sys2Proof.Machine

theorem State.reg_setReg_same {s : State} {i : Nat} (v : Byte) (h : i < s.x.length) :
    (s.setReg i v).reg i = v := by
  simp [State.reg, List.getD, h]

theorem State.reg_setReg_other {s : State} {i j : Nat} (v : Byte) (h : j ≠ i) :
    (s.setReg i v).reg j = s.reg j := by
  simp [State.reg, List.getD, List.getElem?_set_ne (Ne.symm h)]

@[simp] theorem State.byteAt_setByte_same (s : State) (a : Nat) (v : Byte) :
    (s.setByte a v).byteAt a = v := Memory.read_write_same ..

theorem State.byteAt_setByte_other (s : State) {a c : Nat} (v : Byte) (h : c ≠ a) :
    (s.setByte a v).byteAt c = s.byteAt c := Memory.read_write_other _ v h

/-- A register read depends on the registers alone. -/
theorem State.reg_congr {s t : State} (h : t.x = s.x) (j : Nat) : t.reg j = s.reg j := by
  rw [State.reg, State.reg, h]

/-- A byte read depends on the memory alone. -/
theorem State.byteAt_congr {s t : State} (h : t.mem = s.mem) (a : Nat) :
    t.byteAt a = s.byteAt a := by
  rw [State.byteAt, State.byteAt, h]

theorem finishReg_reg_same {i : Instr} {s : State} {r v : Byte} (h : r.toNat < s.x.length) :
    (finishReg i s r v).reg r.toNat = v := State.reg_setReg_same v h

theorem finishReg_reg_other {i : Instr} {s : State} {r v : Byte} {j : Nat} (h : j ≠ r.toNat) :
    (finishReg i s r v).reg j = s.reg j := State.reg_setReg_other v h

/-! The stacks. -/

theorem pushStack_of_lt {α : Type} {k : ErrKind} {cap : Nat} {l : List α} (v : α)
    (h : l.length < cap) : pushStack k cap l v = .ok (l ++ [v]) :=
  if_neg (Nat.not_le.2 h)

theorem pushStack_of_full {α : Type} {k : ErrKind} {cap : Nat} {l : List α} (v : α)
    (h : cap ≤ l.length) : pushStack k cap l v = .error k := if_pos h

/-- All a push can do. -/
theorem pushStack_cases {α : Type} (k : ErrKind) (cap : Nat) (l : List α) (v : α) :
    (l.length < cap ∧ pushStack k cap l v = .ok (l ++ [v])) ∨
      (cap ≤ l.length ∧ pushStack k cap l v = .error k) :=
  (Nat.lt_or_ge l.length cap).imp (fun h => ⟨h, pushStack_of_lt v h⟩)
    (fun h => ⟨h, pushStack_of_full v h⟩)

@[simp] theorem popStack_nil {α : Type} (k : ErrKind) :
    popStack k ([] : List α) = .error k := rfl

@[simp] theorem popStack_concat {α : Type} (k : ErrKind) (l : List α) (v : α) :
    popStack k (l ++ [v]) = .ok (v, l) := by
  simp [popStack]

/-- All a pop can do. -/
theorem popStack_cases {α : Type} (k : ErrKind) (l : List α) :
    (l = [] ∧ popStack k l = .error k) ∨
      ∃ rest v, l = rest ++ [v] ∧ popStack k l = .ok (v, rest) := by
  rcases List.eq_nil_or_concat l with rfl | ⟨rest, v, rfl⟩
  · exact .inl ⟨rfl, rfl⟩
  · exact .inr ⟨rest, v, List.concat_eq_append, by rw [List.concat_eq_append, popStack_concat]⟩

/-! Raising and settling. -/

@[simp] theorem settle_ok (s t : State) : settle s (.ok t) = .next t := rfl

@[simp] theorem settle_error (s : State) (k : ErrKind) : settle s (.error k) = .next (s.raise k) := rfl

/-- Settling always answers a next state. -/
theorem settle_next (s : State) (e : Except ErrKind State) : ∃ t, settle s e = .next t := by
  cases e <;> exact ⟨_, rfl⟩

end Sys2Proof.Machine
end

