-- ==== Sys2Proof/Laws/Operands.lean ====
section
/-! SUPPORT. What validation, the effective address and `perform` can answer, cited by every proof
about an instruction. -/

namespace Sys2Proof.Machine

/-- An instruction whose validation passes settles what its execution computes. -/
theorem perform_of_valid {i : Instr} {s : State} (e : Except ErrKind State)
    (h : validate s.cfg i = .ok ()) : perform i s e = settle s e := by
  simp [perform, h]

/-- An instruction whose validation fails raises that error, whatever its execution computes. -/
theorem perform_of_invalid {i : Instr} {s : State} {k : ErrKind} (e : Except ErrKind State)
    (h : validate s.cfg i = .error k) : perform i s e = .next (s.raise k) := by
  simp [perform, h]

/-- `perform` always answers a next state. -/
theorem perform_next (i : Instr) (s : State) (e : Except ErrKind State) :
    ∃ t, perform i s e = .next t := settle_next s _

/-- All `perform` can do: raise an error, of validation or of execution, or commit the state that
execution computed. -/
theorem perform_cases {i : Instr} {s t : State} {e : Except ErrKind State}
    (h : perform i s e = .next t) :
    (∃ k, t = s.raise k ∧
        (validate s.cfg i = .error k ∨ (validate s.cfg i = .ok () ∧ e = .error k))) ∨
      (validate s.cfg i = .ok () ∧ e = .ok t) := by
  cases hv : validate s.cfg i with
  | error k =>
    rw [perform_of_invalid e hv] at h
    cases h
    exact .inl ⟨k, rfl, .inl rfl⟩
  | ok u =>
    cases u
    rw [perform_of_valid e hv] at h
    cases e with
    | error k => cases h; exact .inl ⟨k, rfl, .inr ⟨rfl, rfl⟩⟩
    | ok t' => cases h; exact .inr ⟨rfl, rfl⟩

/-- An outcome with its next state changed. -/
def mapNext (f : State → State) :
    Host.Outcome State Fault Refusal → Host.Outcome State Fault Refusal
  | .next t => .next (f t)
  | .fault r => .fault r
  | .refused r => .refused r

/-- A change of state that raising and validation do not see, and that execution carries through,
carries through `perform`: the shape of every noninterference argument. -/
theorem perform_map {i : Instr} {s : State} {f : State → State} {e e' : Except ErrKind State}
    (hraise : ∀ k, f (s.raise k) = (f s).raise k) (hcfg : (f s).cfg = s.cfg)
    (he : e' = e.map f) : perform i (f s) e' = mapNext f (perform i s e) := by
  subst he
  unfold perform
  rw [hcfg]
  cases validate s.cfg i with
  | error k => simp [mapNext, hraise]
  | ok u => cases e <;> simp [mapNext, hraise, Except.map]

theorem effectiveAddress_of_lt {s : State} {base : Byte}
    (h : indexedAddress s base < s.cfg.memSize) :
    effectiveAddress s base = .ok (indexedAddress s base) := if_neg (Nat.not_le.2 h)

theorem effectiveAddress_of_ge {s : State} {base : Byte}
    (h : s.cfg.memSize ≤ indexedAddress s base) :
    effectiveAddress s base = .error .invalidAddress := if_pos h

/-- All the effective address can be. -/
theorem effectiveAddress_cases (s : State) (base : Byte) :
    (indexedAddress s base < s.cfg.memSize ∧
        effectiveAddress s base = .ok (indexedAddress s base)) ∨
      (s.cfg.memSize ≤ indexedAddress s base ∧
        effectiveAddress s base = .error .invalidAddress) :=
  (Nat.lt_or_ge _ _).imp (fun h => ⟨h, effectiveAddress_of_lt h⟩)
    (fun h => ⟨h, effectiveAddress_of_ge h⟩)

/-! What validation answers for each shape of operands. -/

/-- One register operand and no other checked operand. -/
theorem validate_reg {c : Config} {i : Instr} {r : Byte} (hr : regOperands i = [r])
    (hx : usesIndex i = false) (ha : addrOperands i = []) :
    validate c i = if c.regCount ≤ r.toNat then .error .invalidRegister else .ok () := by
  simp [validate, hr, hx, ha]

/-- Two register operands. -/
theorem validate_regs {c : Config} {i : Instr} {r r' : Byte} (hr : regOperands i = [r, r'])
    (hx : usesIndex i = false) (ha : addrOperands i = []) :
    validate c i =
      if c.regCount ≤ r.toNat ∨ c.regCount ≤ r'.toNat then .error .invalidRegister
      else .ok () := by
  simp [validate, hr, hx, ha]

/-- One address operand. -/
theorem validate_addr {c : Config} {i : Instr} {a : Byte} (hr : regOperands i = [])
    (hx : usesIndex i = false) (ha : addrOperands i = [a]) :
    validate c i = if c.memSize ≤ a.toNat then .error .invalidAddress else .ok () := by
  simp [validate, hr, hx, ha]

/-- A register and an address operand. -/
theorem validate_reg_addr {c : Config} {i : Instr} {r a : Byte} (hr : regOperands i = [r])
    (hx : usesIndex i = false) (ha : addrOperands i = [a]) :
    validate c i =
      if c.regCount ≤ r.toNat then .error .invalidRegister
      else if c.memSize ≤ a.toNat then .error .invalidAddress
      else .ok () := by
  simp [validate, hr, hx, ha]

/-- A register and a base operand with the implicit index register. -/
theorem validate_indexed {c : Config} {i : Instr} {r a : Byte} (hr : regOperands i = [r])
    (hx : usesIndex i = true) (ha : addrOperands i = [a]) :
    validate c i =
      if c.regCount ≤ r.toNat ∨ c.regCount ≤ 1 then .error .invalidRegister
      else if c.memSize ≤ a.toNat then .error .invalidAddress
      else .ok () := by
  by_cases h : c.regCount ≤ r.toNat <;> simp [validate, hr, hx, ha, h]

/-- No operands. -/
theorem validate_none {c : Config} {i : Instr} (hr : regOperands i = [])
    (hx : usesIndex i = false) (ha : addrOperands i = []) : validate c i = .ok () := by
  simp [validate, hr, hx, ha]

end Sys2Proof.Machine
end

