-- ==== Sys2Proof/Laws/Exec.lean ====
section
/-! SUPPORT. Once for all instructions: what `exec` can do. It raises an error, or the instruction's
validation passed and it committed exactly its own effect. -/

namespace Sys2Proof.Machine

/-! Each arm of `exec`. -/

@[simp] theorem exec_inc (r : Byte) (s : State) : exec (.inc r) s = execInc r s := rfl
@[simp] theorem exec_dec (r : Byte) (s : State) : exec (.dec r) s = execDec r s := rfl
@[simp] theorem exec_out (r : Byte) (s : State) : exec (.out r) s = execOut r s := rfl
@[simp] theorem exec_mov (r imm : Byte) (s : State) : exec (.mov r imm) s = execMov r imm s := rfl
@[simp] theorem exec_push (r : Byte) (s : State) : exec (.push r) s = execPush r s := rfl
@[simp] theorem exec_pop (r : Byte) (s : State) : exec (.pop r) s = execPop r s := rfl
@[simp] theorem exec_call (addr : Byte) (s : State) : exec (.call addr) s = execCall addr s := rfl
@[simp] theorem exec_ret (s : State) : exec .ret s = execRet s := rfl
@[simp] theorem exec_load (r addr : Byte) (s : State) : exec (.load r addr) s = execLoad r addr s := rfl
@[simp] theorem exec_store (r addr : Byte) (s : State) : exec (.store r addr) s = execStore r addr s := rfl
@[simp] theorem exec_ldIdx (r base : Byte) (s : State) : exec (.ldIdx r base) s = execLdIdx r base s := rfl
@[simp] theorem exec_stIdx (r base : Byte) (s : State) : exec (.stIdx r base) s = execStIdx r base s := rfl
@[simp] theorem exec_add (dst src : Byte) (s : State) : exec (.add dst src) s = execAdd dst src s := rfl
@[simp] theorem exec_sub (dst src : Byte) (s : State) : exec (.sub dst src) s = execSub dst src s := rfl
@[simp] theorem exec_mul (dst src : Byte) (s : State) : exec (.mul dst src) s = execMul dst src s := rfl
@[simp] theorem exec_div (dst src : Byte) (s : State) : exec (.div dst src) s = execDiv dst src s := rfl
@[simp] theorem exec_jmp (addr : Byte) (s : State) : exec (.jmp addr) s = execJmp addr s := rfl
@[simp] theorem exec_jeq (addr : Byte) (s : State) : exec (.jeq addr) s = execJeq addr s := rfl
@[simp] theorem exec_jgt (addr : Byte) (s : State) : exec (.jgt addr) s = execJgt addr s := rfl
@[simp] theorem exec_cmp (reg1 reg2 : Byte) (s : State) : exec (.cmp reg1 reg2) s = execCmp reg1 reg2 s := rfl
@[simp] theorem exec_halt (s : State) : exec .halt s = execHalt s := rfl

/-- The state an instruction commits, with what it checked at execute time. -/
def Commits (s t : State) : Instr → Prop
  | .inc r => t = finishReg (.inc r) s r (aluAdd (s.reg r.toNat) 1)
  | .dec r => t = finishReg (.dec r) s r (aluSub (s.reg r.toNat) 1)
  | .out r => t = (s.emit (s.reg r.toNat)).setPc (npcOf (.out r) s)
  | .mov r imm => t = finishReg (.mov r imm) s r imm
  | .push r => s.os.length < s.cfg.stackCap ∧
      t = (s.setOs (s.os ++ [s.reg r.toNat])).setPc (npcOf (.push r) s)
  | .pop r => ∃ rest v, s.os = rest ++ [v] ∧ t = finishReg (.pop r) (s.setOs rest) r v
  | .call a => s.cs.length < s.cfg.callStackCap ∧
      t = (s.setCs (s.cs ++ [npcOf (.call a) s])).setPc a.toNat
  | .ret => ∃ rest a, s.cs = rest ++ [a] ∧ t = (s.setCs rest).setPc a
  | .load r a => t = finishReg (.load r a) s r (s.byteAt a.toNat)
  | .store r a => t = finishStore (.store r a) s a.toNat (s.reg r.toNat)
  | .ldIdx r b => indexedAddress s b < s.cfg.memSize ∧
      t = finishReg (.ldIdx r b) s r (s.byteAt (indexedAddress s b))
  | .stIdx r b => indexedAddress s b < s.cfg.memSize ∧
      t = finishStore (.stIdx r b) s (indexedAddress s b) (s.reg r.toNat)
  | .add d r => t = finishReg (.add d r) s d (aluAdd (s.reg d.toNat) (s.reg r.toNat))
  | .sub d r => t = finishReg (.sub d r) s d (aluSub (s.reg d.toNat) (s.reg r.toNat))
  | .mul d r => t = finishReg (.mul d r) s d (aluMul (s.reg d.toNat) (s.reg r.toNat))
  | .div d r => ∃ q, aluDiv (s.reg d.toNat) (s.reg r.toNat) = .ok q ∧
      t = finishReg (.div d r) s d q
  | .jmp a => t = s.setPc a.toNat
  | .jeq a => t = s.setPc (if s.z then a.toNat else npcOf (.jeq a) s)
  | .jgt a => t = s.setPc (if s.g then a.toNat else npcOf (.jgt a) s)
  | .cmp a b => t =
      (s.setFlags (zeroFlag (s.reg a.toNat) (s.reg b.toNat))
        (greaterFlag (s.reg a.toNat) (s.reg b.toNat))).setPc (npcOf (.cmp a b) s)
  | .halt => t = (s.setRun .halted).setPc (npcOf .halt s)

/-- The shape shared by the instructions that check nothing at execute time. -/
theorem perform_ok_cases {i : Instr} {s t u : State} (h : perform i s (.ok u) = .next t) :
    (∃ k, t = s.raise k) ∨ (validate s.cfg i = .ok () ∧ t = u) := by
  rcases perform_cases h with ⟨k, rfl, -⟩ | ⟨hv, he⟩
  · exact .inl ⟨k, rfl⟩
  · cases he; exact .inr ⟨hv, rfl⟩

/-- All `exec` can do. -/
theorem exec_cases {i : Instr} {s t : State} (h : exec i s = .next t) :
    (∃ k, t = s.raise k) ∨ (validate s.cfg i = .ok () ∧ Commits s t i) := by
  cases i with
  | inc r => exact perform_ok_cases h
  | dec r => exact perform_ok_cases h
  | out r => exact perform_ok_cases h
  | mov r imm => exact perform_ok_cases h
  | load r a => exact perform_ok_cases h
  | store r a => exact perform_ok_cases h
  | add d r => exact perform_ok_cases h
  | sub d r => exact perform_ok_cases h
  | mul d r => exact perform_ok_cases h
  | jmp a => exact perform_ok_cases h
  | jeq a => exact perform_ok_cases h
  | jgt a => exact perform_ok_cases h
  | cmp a b => exact perform_ok_cases h
  | halt => exact perform_ok_cases h
  | push r =>
    rcases perform_cases h with ⟨k, rfl, -⟩ | ⟨hv, he⟩
    · exact .inl ⟨k, rfl⟩
    rcases pushStack_cases .stackOverflow s.cfg.stackCap s.os (s.reg r.toNat) with
      ⟨hl, hp⟩ | ⟨-, hp⟩
    · rw [hp] at he; cases he; exact .inr ⟨hv, hl, rfl⟩
    · rw [hp] at he; cases he
  | pop r =>
    rcases perform_cases h with ⟨k, rfl, -⟩ | ⟨hv, he⟩
    · exact .inl ⟨k, rfl⟩
    rcases popStack_cases .stackUnderflow s.os with ⟨-, hp⟩ | ⟨rest, v, hs, hp⟩
    · rw [hp] at he; cases he
    · rw [hp] at he; cases he; exact .inr ⟨hv, rest, v, hs, rfl⟩
  | call a =>
    rcases perform_cases h with ⟨k, rfl, -⟩ | ⟨hv, he⟩
    · exact .inl ⟨k, rfl⟩
    rcases pushStack_cases .callStackOverflow s.cfg.callStackCap s.cs (npcOf (.call a) s) with
      ⟨hl, hp⟩ | ⟨-, hp⟩
    · rw [hp] at he; cases he; exact .inr ⟨hv, hl, rfl⟩
    · rw [hp] at he; cases he
  | ret =>
    rcases perform_cases (i := .ret) (s := s) h with ⟨k, rfl, -⟩ | ⟨hv, he⟩
    · exact .inl ⟨k, rfl⟩
    rcases popStack_cases .callStackUnderflow s.cs with ⟨-, hp⟩ | ⟨rest, v, hs, hp⟩
    · rw [hp] at he; cases he
    · rw [hp] at he; cases he; exact .inr ⟨hv, rest, v, hs, rfl⟩
  | ldIdx r b =>
    rcases perform_cases h with ⟨k, rfl, -⟩ | ⟨hv, he⟩
    · exact .inl ⟨k, rfl⟩
    rcases effectiveAddress_cases s b with ⟨hl, hp⟩ | ⟨-, hp⟩
    · rw [hp] at he; cases he; exact .inr ⟨hv, hl, rfl⟩
    · rw [hp] at he; cases he
  | stIdx r b =>
    rcases perform_cases h with ⟨k, rfl, -⟩ | ⟨hv, he⟩
    · exact .inl ⟨k, rfl⟩
    rcases effectiveAddress_cases s b with ⟨hl, hp⟩ | ⟨-, hp⟩
    · rw [hp] at he; cases he; exact .inr ⟨hv, hl, rfl⟩
    · rw [hp] at he; cases he
  | div d r =>
    rcases perform_cases h with ⟨k, rfl, -⟩ | ⟨hv, he⟩
    · exact .inl ⟨k, rfl⟩
    cases hq : aluDiv (s.reg d.toNat) (s.reg r.toNat) with
    | error k => rw [hq] at he; cases he
    | ok q => rw [hq] at he; cases he; exact .inr ⟨hv, q, hq, rfl⟩

end Sys2Proof.Machine
end

