-- ==== Sys2Proof/Laws/Step.lean ====
section
/-! SUPPORT. What fetching and stepping can answer: each case once, for every later proof. -/

namespace Sys2Proof.Machine

/-- All a fetch can do. -/
theorem fetch_cases (s : State) :
    ((s.cfg.memSize ≤ s.pc ∨ ∃ m, decodeByte (s.byteAt s.pc) = .known m ∧
        s.cfg.memSize < s.pc + 1 + m.arity) ∧ fetch s = .error .invalidAddress) ∨
    (s.pc < s.cfg.memSize ∧ decodeByte (s.byteAt s.pc) = .unknown (s.byteAt s.pc) ∧
        fetch s = .ok (.unknown (s.byteAt s.pc))) ∨
    ∃ m, decodeByte (s.byteAt s.pc) = .known m ∧ s.pc + 1 + m.arity ≤ s.cfg.memSize ∧
        fetch s = .ok (.instr (m.build (fun k => s.byteAt (s.pc + k)))) := by
  unfold fetch
  split
  · next h => exact .inl ⟨.inl h, rfl⟩
  · next h =>
    cases hd : decodeByte (s.byteAt s.pc) with
    | unknown op =>
      obtain ⟨rfl, -⟩ := unknown_of_decodeByte hd
      exact .inr (.inl ⟨Nat.not_le.1 h, rfl, rfl⟩)
    | known m =>
      by_cases hm : s.cfg.memSize < s.pc + 1 + m.arity
      · exact .inl ⟨.inr ⟨m, rfl, hm⟩, by simp [hm]⟩
      · exact .inr (.inr ⟨m, rfl, Nat.not_lt.1 hm, by simp [hm]⟩)

/-- A Running step whose fetch fails raises the fetch's error. -/
theorem step_of_fetch_error {s : State} {k : ErrKind} (hr : s.run = .running)
    (h : fetch s = .error k) : step s = .next (s.raise k) := by
  simp [step, hr, h]

/-- A Running step at an undefined opcode byte raises `UnknownOpcode`. -/
theorem step_of_fetch_unknown {s : State} {op : Byte} (hr : s.run = .running)
    (h : fetch s = .ok (.unknown op)) : step s = .next (s.raise (.unknownOpcode op)) := by
  simp [step, hr, h, execUnknown]

/-- A Running step whose fetch delivers an instruction is that instruction's execution. -/
theorem step_of_fetch_instr {s : State} {i : Instr} (hr : s.run = .running)
    (h : fetch s = .ok (.instr i)) : step s = exec i s := by
  simp [step, hr, h]

/-- A step that answers a next state started Running. -/
theorem running_of_step_next {s t : State} (h : step s = .next t) : s.run = .running := by
  cases hr : s.run with
  | running => rfl
  | halted => simp [step, hr] at h
  | errored k => simp [step, hr] at h

/-- All a step that answers a next state can have done: raise a fetch error or `UnknownOpcode`, or
execute the instruction whose bytes stand at `pc` inside memory. -/
theorem step_cases {s t : State} (h : step s = .next t) :
    (∃ k, t = s.raise k) ∨
      ∃ m, decodeByte (s.byteAt s.pc) = .known m ∧ s.pc + 1 + m.arity ≤ s.cfg.memSize ∧
        exec (m.build (fun k => s.byteAt (s.pc + k))) s = .next t := by
  have hr := running_of_step_next h
  rcases fetch_cases s with ⟨-, hf⟩ | ⟨-, -, hf⟩ | ⟨m, hm, hb, hf⟩
  · rw [step_of_fetch_error hr hf] at h
    cases h
    exact .inl ⟨_, rfl⟩
  · rw [step_of_fetch_unknown hr hf] at h
    cases h
    exact .inl ⟨_, rfl⟩
  · rw [step_of_fetch_instr hr hf] at h
    exact .inr ⟨m, hm, hb, h⟩

end Sys2Proof.Machine
end

