-- ==== Sys2Proof/Laws/HostInterface.lean ====
section
/-! SUPPORT. What bytes placed in memory read as, and what a host step is. -/

namespace Sys2Proof.Machine

/-- A byte before the placed ones reads as it did. -/
theorem Memory.read_writeBytes_below (m : Memory) (n : Nat) (bytes : List Byte) {a c : Nat}
    (h : c < a) : (m.writeBytes n a bytes).read c = m.read c := by
  induction bytes generalizing m a with
  | nil => rfl
  | cons v vs ih =>
    unfold Memory.writeBytes
    rw [ih _ (Nat.lt_succ_of_lt h)]
    split
    · exact Memory.read_write_other m v (by omega)
    · rfl

/-- Each placed byte below the bound reads back. -/
theorem Memory.read_writeBytes (m : Memory) (n : Nat) (bytes : List Byte) {a k : Nat}
    (hk : k < bytes.length) (hn : a + k < n) :
    (m.writeBytes n a bytes).read (a + k) = bytes[k] := by
  induction bytes generalizing m a k with
  | nil => simp at hk
  | cons v vs ih =>
    unfold Memory.writeBytes
    cases k with
    | zero => simp [Memory.read_writeBytes_below, show a < n by omega]
    | succ k =>
      have hk' : k < vs.length := by simpa using hk
      have := ih (if a < n then m.write a v else m) hk' (a := a + 1) (by omega)
      simpa [Nat.add_assoc, Nat.add_comm 1 k] using this

/-- A byte past the placed ones reads as it did. -/
theorem Memory.read_writeBytes_above (m : Memory) (n : Nat) (bytes : List Byte) {a c : Nat}
    (h : a + bytes.length ≤ c) : (m.writeBytes n a bytes).read c = m.read c := by
  induction bytes generalizing m a with
  | nil => rfl
  | cons v vs ih =>
    simp only [List.length_cons] at h
    unfold Memory.writeBytes
    rw [ih _ (by omega)]
    split
    · exact Memory.read_write_other m v (by omega)
    · rfl

/-- A terminal CORE is one that is not Running. -/
theorem State.isTerminal_iff (s : State) : s.isTerminal = true ↔ s.run ≠ .running := by
  unfold State.isTerminal
  cases s.run <;> simp

/-- A step that answers a next state is the host's step. -/
theorem State.hostStep_of_next {s t : State} (h : step s = .next t) : s.hostStep = t := by
  simp [State.hostStep, h]

/-- A terminal CORE stays as it is under any limit. -/
theorem State.runFor_of_terminal {s : State} (h : s.isTerminal = true) (n : Nat) :
    s.runFor n = s := by
  cases n <;> simp [State.runFor, h]

end Sys2Proof.Machine
end

