-- ==== Sys2Proof/Laws/PerInstr.lean ====
section
/-! SUPPORT. Per-instruction laws about instructions as syntax: the family `Encoded` says that an
instruction's encoding is its opcode byte followed by as many bytes as its table row has operands,
that the decoder reads that opcode byte as the instruction's row, and that every operand kind has
its byte. -/

namespace Sys2Proof.Laws.Encoded

/-- R70, R71: the shape of one instruction's encoding. -/
def Statement (i : Instr) : Prop :=
  (encode i).length = i.length ∧ (encode i).head? = some i.opcode.byte ∧
    decodeByte i.opcode.byte = .known i.opcode ∧ i.operands.map Prod.fst = i.opcode.kinds ∧
    i.operands.map Prod.snd = i.operandBytes

theorem inc (r : Byte) : Statement (.inc r) := ⟨rfl, rfl, rfl, rfl, rfl⟩
theorem dec (r : Byte) : Statement (.dec r) := ⟨rfl, rfl, rfl, rfl, rfl⟩
theorem out (r : Byte) : Statement (.out r) := ⟨rfl, rfl, rfl, rfl, rfl⟩
theorem mov (r imm : Byte) : Statement (.mov r imm) := ⟨rfl, rfl, rfl, rfl, rfl⟩
theorem push (r : Byte) : Statement (.push r) := ⟨rfl, rfl, rfl, rfl, rfl⟩
theorem pop (r : Byte) : Statement (.pop r) := ⟨rfl, rfl, rfl, rfl, rfl⟩
theorem call (addr : Byte) : Statement (.call addr) := ⟨rfl, rfl, rfl, rfl, rfl⟩
theorem ret : Statement .ret := ⟨rfl, rfl, rfl, rfl, rfl⟩
theorem load (r addr : Byte) : Statement (.load r addr) := ⟨rfl, rfl, rfl, rfl, rfl⟩
theorem store (r addr : Byte) : Statement (.store r addr) := ⟨rfl, rfl, rfl, rfl, rfl⟩
theorem ldIdx (r base : Byte) : Statement (.ldIdx r base) := ⟨rfl, rfl, rfl, rfl, rfl⟩
theorem stIdx (r base : Byte) : Statement (.stIdx r base) := ⟨rfl, rfl, rfl, rfl, rfl⟩
theorem add (dst src : Byte) : Statement (.add dst src) := ⟨rfl, rfl, rfl, rfl, rfl⟩
theorem sub (dst src : Byte) : Statement (.sub dst src) := ⟨rfl, rfl, rfl, rfl, rfl⟩
theorem mul (dst src : Byte) : Statement (.mul dst src) := ⟨rfl, rfl, rfl, rfl, rfl⟩
theorem div (dst src : Byte) : Statement (.div dst src) := ⟨rfl, rfl, rfl, rfl, rfl⟩
theorem jmp (addr : Byte) : Statement (.jmp addr) := ⟨rfl, rfl, rfl, rfl, rfl⟩
theorem jeq (addr : Byte) : Statement (.jeq addr) := ⟨rfl, rfl, rfl, rfl, rfl⟩
theorem jgt (addr : Byte) : Statement (.jgt addr) := ⟨rfl, rfl, rfl, rfl, rfl⟩
theorem cmp (reg1 reg2 : Byte) : Statement (.cmp reg1 reg2) := ⟨rfl, rfl, rfl, rfl, rfl⟩
theorem halt : Statement .halt := ⟨rfl, rfl, rfl, rfl, rfl⟩

end Sys2Proof.Laws.Encoded
end

