-- ==== Sys2Proof/Tests/Slice0.lean ====
section
/-! SUPPORT. The model's own tests. Every expected result is a vector or example of the spec
(95_test_vectors.md, named by its id, or the rule cited), and the witnesses that the hypotheses of
the statements can be met. -/

namespace Sys2Proof.Tests

open Sys2Proof Sys2Proof.Machine Sys2Proof.Assembler

/-- The configuration K1 of the spec's vectors. -/
def k1 : Config := { Config.k0 with memSize := 16 }

/-- The configuration K2 of the spec's vectors. -/
def k2 : Config := { Config.k0 with regCount := 1 }

/-- A Running state with registers, and bytes placed at `pc`. -/
def boot (c : Config) (pc : Nat) (x : List Byte) (bytes : List Byte) : State :=
  { State.reset with cfg := c, pc := pc, x := x, mem := Memory.writeBytes [] c.memSize pc bytes }

/-- The next state of an outcome. -/
def nextOf : Host.Outcome State Fault Refusal → Option State
  | .next t => some t
  | _ => none

/-- A field of the state after one step. -/
def after {α : Type} (s : State) (f : State → α) : Option α := (nextOf (step s)).map f

/-- What an assembler call answers, as plain data. -/
def asm (source : Text) : List Byte ⊕ AsmError :=
  match assemble source with
  | .ok bytes => .inl bytes
  | .error e => .inr e

/-! Well-formedness: an ill-formed term for each check, which the check refuses. -/

theorem test_wellFormed_accepts : Instr.wellFormed k1 (.ldIdx 3 15) = true := by decide
theorem test_illFormed_register : Instr.wellFormed k1 (.inc 4) = false := by decide
theorem test_illFormed_mov_register : Instr.wellFormed k1 (.mov 4 0) = false := by decide
theorem test_illFormed_destination : Instr.wellFormed k1 (.add 4 0) = false := by decide
theorem test_illFormed_source : Instr.wellFormed k1 (.add 0 4) = false := by decide
theorem test_illFormed_target : Instr.wellFormed k1 (.jmp 16) = false := by decide
theorem test_illFormed_load_register : Instr.wellFormed k1 (.load 4 0) = false := by decide
theorem test_illFormed_load_address : Instr.wellFormed k1 (.load 0 16) = false := by decide
theorem test_illFormed_index_register : Instr.wellFormed k2 (.ldIdx 0 0) = false := by decide
theorem test_illFormed_indexed_register : Instr.wellFormed k1 (.stIdx 4 0) = false := by decide
theorem test_illFormed_base : Instr.wellFormed k1 (.stIdx 0 16) = false := by decide

/-! Decoding, each word written out from the encoding column of its rule. -/

/-- R130. -/
theorem test_decode_inc : decode [0b00000001, 0x07] = .ok (.inc 0x07, []) := by decide
/-- R131. -/
theorem test_decode_dec : decode [0b00000010, 0x02] = .ok (.dec 0x02, []) := by decide
/-- R132. -/
theorem test_decode_out : decode [0b00000011, 0x05] = .ok (.out 0x05, []) := by decide
/-- R133. -/
theorem test_decode_mov : decode [0b00000100, 0x03, 0xFE] = .ok (.mov 0x03 0xFE, []) := by decide
/-- R140. -/
theorem test_decode_push : decode [0b00010000, 0x01] = .ok (.push 0x01, []) := by decide
/-- R141. -/
theorem test_decode_pop : decode [0b00010001, 0x03] = .ok (.pop 0x03, []) := by decide
/-- R142. -/
theorem test_decode_call : decode [0b00010010, 0x1A] = .ok (.call 0x1A, []) := by decide
/-- R143. -/
theorem test_decode_ret : decode [0b00010011] = .ok (.ret, []) := by decide
/-- R150. -/
theorem test_decode_load : decode [0b00100000, 0x01, 0x42] = .ok (.load 0x01 0x42, []) := by decide
/-- R151. -/
theorem test_decode_store : decode [0b00100001, 0x02, 0x42] = .ok (.store 0x02 0x42, []) := by decide
/-- R152. -/
theorem test_decode_ldIdx : decode [0b00100010, 0x01, 0x50] = .ok (.ldIdx 0x01 0x50, []) := by decide
/-- R153. -/
theorem test_decode_stIdx : decode [0b00100011, 0x00, 0x50] = .ok (.stIdx 0x00 0x50, []) := by decide
/-- R162. -/
theorem test_decode_add : decode [0b00110000, 0x00, 0x01] = .ok (.add 0x00 0x01, []) := by decide
/-- R163. -/
theorem test_decode_sub : decode [0b00110001, 0x02, 0x01] = .ok (.sub 0x02 0x01, []) := by decide
/-- R164. -/
theorem test_decode_mul : decode [0b00110010, 0x02, 0x03] = .ok (.mul 0x02 0x03, []) := by decide
/-- R165. -/
theorem test_decode_div : decode [0b00110011, 0x03, 0x02] = .ok (.div 0x03 0x02, []) := by decide
/-- R170. -/
theorem test_decode_jmp : decode [0b01000000, 0x10] = .ok (.jmp 0x10, []) := by decide
/-- R171. -/
theorem test_decode_jeq : decode [0b01000001, 0x09] = .ok (.jeq 0x09, []) := by decide
/-- R172. -/
theorem test_decode_jgt : decode [0b01000010, 0x26] = .ok (.jgt 0x26, []) := by decide
/-- R173. -/
theorem test_decode_cmp : decode [0b01000011, 0x01, 0x02] = .ok (.cmp 0x01 0x02, []) := by decide
/-- R180. -/
theorem test_decode_halt : decode [0b11111111] = .ok (.halt, []) := by decide
/-- R75, DEC-4: a byte outside the table is refused by name. -/
theorem test_decode_unknown : decode [0x05, 0x01, 0x02] = .error (.unknownOpcode 0x05) := by decide
/-- R77: a missing operand byte. -/
theorem test_decode_truncated : decode [0x04, 0x00] = .error .truncated := by decide
/-- The host's numbering of a row's bits: the second byte is bits 15..8. -/
theorem test_decodeTableWord : decodeTableWord 24 0x014220 = some (.load 0x42 0x01) := by decide
/-- Bits above the row's width are zero operand bytes. -/
theorem test_decodeTableWord_short : decodeTableWord 8 0xFFFF04 = some (.mov 0 0) := by decide
/-- An instruction placed for the next step is the one it runs (R180). -/
theorem test_withFetchWord :
    after (State.reset.withFetchWord 8 0xFF) (fun t => (t.run, t.pc)) = some (.halted, 1) := by
  decide

/-! The instruction cycle (CYC). -/

/-- CYC-2: the operand byte at 16 is missing. -/
theorem test_operand_past_end :
    after (boot k1 15 [0, 0, 0, 0] [0x01]) (fun t => (t.run, t.pc)) =
      some (.errored .invalidAddress, 15) := by decide
/-- CYC-5: Halt in the last cell leaves `pc = MEM_SIZE`. -/
theorem test_halt_last_cell :
    after (boot k1 15 [0, 0, 0, 0] [0xFF]) (fun t => (t.run, t.pc)) = some (.halted, 16) := by
  decide
/-- CYC-1: a fetch at `MEM_SIZE`. -/
theorem test_fetch_past_end :
    after (boot k1 16 [0, 0, 0, 0] []) (fun t => (t.run, t.pc)) =
      some (.errored .invalidAddress, 16) := by decide
/-- R86: a terminal CORE has no step, and the host's step request changes nothing. -/
theorem test_terminal_step :
    ({ State.reset with run := .halted } : State).hostStep =
      { State.reset with run := .halted } := by decide

/-! Instructions. -/

/-- REG-2: wrap. -/
theorem test_inc_wraps :
    after (boot Config.k0 0 [0xFF, 0, 0, 0] [0x01, 0x00]) (fun t => (t.x, t.pc)) =
      some ([0x00, 0, 0, 0], 2) := by decide
/-- REG-3: an invalid register. -/
theorem test_inc_invalid :
    after (boot Config.k0 0 [1, 1, 1, 1] [0x01, 0x04]) (fun t => (t.run, t.pc, t.x)) =
      some (.errored .invalidRegister, 0, [1, 1, 1, 1]) := by decide
/-- REG-5: wrap. -/
theorem test_dec_wraps :
    after (boot Config.k0 0 [0, 0, 0x00, 0] [0x02, 0x02]) (fun t => (t.x, t.pc)) =
      some ([0, 0, 0xFF, 0], 2) := by decide
/-- REG-7: the emitted value. -/
theorem test_out_emits :
    after (boot Config.k0 0 [0, 0, 0xC8, 0] [0x03, 0x02]) (fun t => (t.out, t.pc)) =
      some ([200], 2) := by decide
/-- REG-8: nothing emitted. -/
theorem test_out_invalid :
    after (boot Config.k0 0 [0, 0, 0, 0] [0x03, 0x04]) (fun t => (t.run, t.out)) =
      some (.errored .invalidRegister, []) := by decide
/-- REG-11: the immediate is not checked against `MEM_SIZE`. -/
theorem test_mov_immediate :
    after (boot k1 0 [0, 0, 0, 0] [0x04, 0x00, 0xFF]) (fun t => (t.x, t.pc)) =
      some ([0xFF, 0, 0, 0], 3) := by decide
/-- STK-1. -/
theorem test_push_pushes :
    after ({ (boot Config.k0 0 [7, 0, 0, 0] [0x10, 0x00]) with os := [5] } : State) (fun t => (t.os, t.pc)) =
      some ([5, 7], 2) := by decide
/-- STK-2. -/
theorem test_push_full :
    after ({ (boot Config.k0 0 [7, 0, 0, 0] [0x10, 0x00]) with os := [1, 2] } : State) (fun t => (t.run, t.os)) =
      some (.errored .stackOverflow, [1, 2]) := by decide
/-- STK-4: the last entry is the top. -/
theorem test_pop_pops :
    after ({ (boot Config.k0 0 [0, 0, 0, 0] [0x11, 0x03]) with os := [7, 9] } : State) (fun t => (t.x, t.os)) =
      some ([0, 0, 0, 9], [7]) := by decide
/-- STK-6: the register is checked before the depth. -/
theorem test_pop_invalid :
    after (boot Config.k0 0 [0, 0, 0, 0] [0x11, 0x04]) (fun t => (t.run, t.pc)) =
      some (.errored .invalidRegister, 0) := by decide
/-- STK-7: the return address is `a0 + 2`. -/
theorem test_call_pushes :
    after (boot Config.k0 0x11 [0, 0, 0, 0] [0x12, 0x1A]) (fun t => (t.cs, t.pc)) =
      some ([0x13], 0x1A) := by decide
/-- STK-9: the address is checked before the depth. -/
theorem test_call_invalid :
    after ({ (boot k1 0 [0, 0, 0, 0] [0x12, 0x10]) with cs := [5, 6] } : State) (fun t => (t.run, t.cs)) =
      some (.errored .invalidAddress, [5, 6]) := by decide
/-- STK-11. -/
theorem test_ret_pops :
    after ({ (boot Config.k0 0 [0, 0, 0, 0] [0x13]) with cs := [4, 0x13] } : State) (fun t => (t.cs, t.pc)) =
      some ([4], 0x13) := by decide
/-- STK-12. -/
theorem test_ret_empty :
    after (boot Config.k0 0 [0, 0, 0, 0] [0x13]) (fun t => (t.run, t.pc)) =
      some (.errored .callStackUnderflow, 0) := by decide
/-- R150: loading from the program's own bytes. -/
theorem test_load_reads :
    after (boot Config.k0 0 [0, 0, 0, 0] [0x20, 0x01, 0x03, 0x10]) (fun t => (t.x, t.pc)) =
      some ([0, 0x10, 0, 0], 3) := by decide
/-- MEM-2: address 16. -/
theorem test_load_invalid :
    after (boot k1 0 [0, 0, 0, 0] [0x20, 0x00, 0x10]) (fun t => (t.run, t.pc)) =
      some (.errored .invalidAddress, 0) := by decide
/-- MEM-5: the last cell. -/
theorem test_store_writes :
    after (boot k1 0 [0x77, 0, 0, 0] [0x21, 0x00, 0x0F]) (fun t => (t.byteAt 15, t.byteAt 0, t.pc)) =
      some (0x77, 0x21, 3) := by decide
/-- R151: a Store of 0x00 removes the listed cell. -/
theorem test_store_canonical :
    after (boot Config.k0 0 [0, 0, 0, 0] [0x21, 0x00, 0x02]) (fun t => t.mem) =
      some [(0, 0x21)] := by decide
/-- MEM-6, with `r = 1`: the index is read before it is overwritten. -/
theorem test_ldIdx_reads :
    after (boot Config.k0 0 [0, 2, 0, 0] [0x22, 0x01, 0x01, 0x2A]) (fun t => (t.x, t.pc)) =
      some ([0, 0x2A, 0, 0], 3) := by decide
/-- MEM-8: the effective address equal to `MEM_SIZE`. -/
theorem test_ldIdx_bound :
    after (boot k1 0 [0, 6, 0, 0] [0x22, 0x00, 0x0A]) (fun t => (t.run, t.pc)) =
      some (.errored .invalidAddress, 0) := by decide
/-- MEM-13. -/
theorem test_stIdx_writes :
    after (boot Config.k0 0 [0x2A, 2, 0, 0] [0x23, 0x00, 0x50]) (fun t => (t.byteAt 0x52, t.pc)) =
      some (0x2A, 3) := by decide
/-- MEM-16: the implicit r1 does not exist. -/
theorem test_stIdx_no_index :
    after (boot k2 0 [0] [0x23, 0x00, 0x00]) (fun t => (t.run, t.pc)) =
      some (.errored .invalidRegister, 0) := by decide
/-- ALU-2. -/
theorem test_add_wraps :
    after (boot Config.k0 0 [200, 100, 0, 0] [0x30, 0x00, 0x01]) (fun t => (t.x, t.pc)) =
      some ([44, 100, 0, 0], 3) := by decide
/-- ALU-4: the same register twice. -/
theorem test_add_same :
    after (boot Config.k0 0 [128, 0, 0, 0] [0x30, 0x00, 0x00]) (fun t => t.x) =
      some [0, 0, 0, 0] := by decide
/-- ALU-7. -/
theorem test_sub_wraps :
    after (boot Config.k0 0 [3, 5, 0, 0] [0x31, 0x00, 0x01]) (fun t => t.x) =
      some [254, 5, 0, 0] := by decide
/-- ALU-14. -/
theorem test_mul_low :
    after (boot Config.k0 0 [255, 255, 0, 0] [0x32, 0x00, 0x01]) (fun t => t.x) =
      some [1, 255, 0, 0] := by decide
/-- ALU-16. -/
theorem test_div_floor :
    after (boot Config.k0 0 [7, 2, 0, 0] [0x33, 0x00, 0x01]) (fun t => t.x) =
      some [3, 2, 0, 0] := by decide
/-- ALU-20. -/
theorem test_div_zero :
    after (boot Config.k0 0 [5, 0, 0, 0] [0x33, 0x00, 0x01]) (fun t => (t.run, t.x, t.pc)) =
      some (.errored .divisionByZero, [5, 0, 0, 0], 0) := by decide
/-- BR-7. -/
theorem test_jmp_jumps :
    after (boot Config.k0 0 [0, 0, 0, 0] [0x40, 0x10]) (fun t => t.pc) =
      some 0x10 := by decide
/-- BR-8. -/
theorem test_jmp_invalid :
    after (boot k1 0 [0, 0, 0, 0] [0x40, 0x10]) (fun t => t.run) =
      some (.errored .invalidAddress) := by decide
/-- BR-9. -/
theorem test_jeq_taken :
    after ({ (boot Config.k0 0x20 [0, 0, 0, 0] [0x41, 0x09]) with z := true } : State) (fun t => t.pc) =
      some 0x09 := by decide
/-- BR-11: the target is checked though not taken. -/
theorem test_jeq_invalid :
    after (boot k1 0 [0, 0, 0, 0] [0x41, 0x10]) (fun t => t.run) =
      some (.errored .invalidAddress) := by decide
/-- BR-12. -/
theorem test_jgt_taken :
    after ({ (boot Config.k0 0x20 [0, 0, 0, 0] [0x42, 0x09]) with g := true } : State) (fun t => t.pc) =
      some 0x09 := by decide
/-- BR-13. -/
theorem test_jgt_not_taken :
    after ({ (boot Config.k0 0x20 [0, 0, 0, 0] [0x42, 0x09]) with z := true } : State) (fun t => t.pc) =
      some 0x22 := by decide
/-- BR-4: unsigned. -/
theorem test_cmp_unsigned :
    after (boot Config.k0 0 [0xFF, 1, 0, 0] [0x43, 0x00, 0x01]) (fun t => (t.z, t.g, t.pc)) =
      some (false, true, 3) := by decide
/-- BR-6: the flags keep their values. -/
theorem test_cmp_invalid :
    after ({ (boot Config.k0 0 [0, 0, 0, 0] [0x43, 0x00, 0x07]) with z := true } : State) (fun t => (t.run, t.z)) =
      some (.errored .invalidRegister, true) := by decide
/-- SYS-2: non-empty stacks do not matter. -/
theorem test_halt_stacks :
    after ({ (boot Config.k0 0 [0, 0, 0, 0] [0xFF]) with os := [1], cs := [4] } : State) (fun t => (t.run, t.os, t.cs)) =
      some (.halted, [1], [4]) := by decide
/-- SYS-3: the status triple. -/
theorem test_unknown_opcode :
    after (boot Config.k0 2 [0, 0, 0, 0] [0x00]) (fun t => (t.status, t.pc)) =
      some ((2, 8, 0x00), 2) := by decide

/-! Construction (R221, R222). -/

/-- R41: the image at address 0, zeros above, in canonical form. -/
theorem test_construct :
    (State.construct k1 [0x01, 0x00, 0xFF]).map (fun s => (s.mem, s.pc, s.x)) =
      some ([(0, 0x01), (2, 0xFF)], 0, [0, 0, 0, 0]) := by decide
/-- R221: the entry point must be a cell. -/
theorem test_construct_entry : State.construct { k1 with entry := 16 } [] = none := by decide
/-- R40: the reset state is the construction with K0 and no image. -/
theorem test_reset_is_constructed : State.construct Config.k0 [] = some State.reset := by decide

/-! The assembler (ASM vectors). -/

/-- ASM-2: a forward reference. -/
theorem test_asm_forward :
    asm
       ['J', 'm', 'p', ' ', 'e', 'n', 'd', '\n', 'I', 'n', 'c', ' ', '0', '\n', 'e', 'n',
        'd', ':', '\n', 'H', 'a', 'l', 't'] =
      .inl [0x40, 0x04, 0x01, 0x00, 0xFF] := by decide
/-- ASM-3: case-insensitive mnemonics and a hex literal; R101: a carriage return before a line feed. -/
theorem test_asm_case :
    asm
       ['m', 'o', 'v', ' ', '0', ',', ' ', '0', 'x', '0', 'A', '\r', '\n', 'H', 'A', 'L',
        'T'] =
      .inl [0x04, 0x00, 0x0A, 0xFF] := by decide
/-- ASM-6. -/
theorem test_asm_label_not_allowed :
    asm
       ['l', 'o', 'o', 'p', ':', '\n', 'M', 'o', 'v', ' ', '0', ',', ' ', 'l', 'o', 'o', 'p'] =
      .inr (.syntaxError 2 .labelNotAllowed) := by decide
/-- ASM-8. -/
theorem test_asm_operand_count :
    asm
       ['I', 'n', 'c'] =
      .inr (.syntaxError 1 .operandCount) := by decide
/-- ASM-13: an empty piece. -/
theorem test_asm_empty_piece :
    asm
       ['M', 'o', 'v', ' ', '0', ','] =
      .inr (.syntaxError 1 .badOperand) := by decide
/-- ASM-12. -/
theorem test_asm_bare_hex :
    asm
       ['I', 'n', 'c', ' ', '0', 'x'] =
      .inr (.syntaxError 1 .badOperand) := by decide
/-- ASM-14. -/
theorem test_asm_duplicate :
    asm
       ['a', ':', '\n', 'a', ':'] =
      .inr (.syntaxError 2 .duplicateLabel) := by decide
/-- ASM-15: a label and an instruction on one line. -/
theorem test_asm_shared_line :
    asm
       ['l', 'o', 'o', 'p', ':', ' ', 'I', 'n', 'c', ' ', '0'] =
      .inr (.syntaxError 1 .unknownMnemonic) := by decide
/-- ASM-16: a pass-1 error wins. -/
theorem test_asm_pass1_first :
    asm
       ['J', 'm', 'p', ' ', 'n', 'o', 'w', 'h', 'e', 'r', 'e', '\n', 'F', 'o', 'o'] =
      .inr (.syntaxError 2 .unknownMnemonic) := by decide
/-- ASM-17: comments and blank lines. -/
theorem test_asm_comments :
    asm
       [';', ' ', 'h', 'i', '\n', '\n', 'H', 'a', 'l', 't', ' ', ';', ' ', 's', 't', 'o',
        'p'] =
      .inl [0xFF] := by decide
/-- ASM-21: a label as base. -/
theorem test_asm_base_label :
    asm
       ['L', 'd', 'I', 'd', 'x', ' ', '0', ',', ' ', 't', '\n', 'H', 'a', 'l', 't', '\n',
        't', ':'] =
      .inl [0x22, 0x00, 0x04, 0xFF] := by decide
/-- ASM-22: labels are case-sensitive. -/
theorem test_asm_label_case :
    asm
       ['L', 'o', 'o', 'p', ':', '\n', 'J', 'm', 'p', ' ', 'l', 'o', 'o', 'p'] =
      .inr (.unresolvedLabel ['l', 'o', 'o', 'p'] 2) := by decide

/-! Witnesses: for each statement with hypotheses, states and operands that meet them, at the
boundaries of its clauses. K1 has registers 0 to 3 and addresses 0 to 15. -/

/-- A legal state of K1: one entry on each stack, `Z` set, `x[1] = 5`. -/
def demo : State :=
  { State.reset with cfg := k1, x := [7, 5, 0, 255], os := [9], cs := [5], z := true }

/-- A legal state of K1 with both stacks full, `G` set and `x[1] = 6`. -/
def full : State :=
  { demo with x := [7, 6, 0, 255], os := [1, 2], cs := [5, 16], z := false, g := true }

/-- A legal state of K1 with both stacks empty and both flags clear. -/
def empty : State := { demo with os := [], cs := [], z := false }

/-- A legal state of K2, which has no register 1. -/
def single : State := { State.reset with cfg := k2, x := [3] }

theorem demo_legal : demo.Inv := by constructor <;> decide
theorem full_legal : full.Inv := by constructor <;> decide
theorem empty_legal : empty.Inv := by constructor <;> decide
theorem single_legal : single.Inv := by constructor <;> decide

theorem witness_DecodedBytesAreTheEncoding :
    decode [0x30, 0x00, 0x01, 0x09] = .ok (.add 0 1, [0x09]) := by decide
theorem witness_OpcodeByteDecidesLength :
    decode [0x04, 0x00, 0x05] = .ok (.mov 0 5, []) ∧
      decode [0x04, 0x03, 0xFF, 0x01] = .ok (.mov 3 255, [0x01]) := by decide
/-- An undefined and a defined byte at the edges of R75's ranges. -/
theorem witness_DecoderReadsTheOpcodeMap :
    undefinedOpcode 0x00 = true ∧ undefinedOpcode 0xFE = true ∧ undefinedOpcode 0x43 = false ∧
      undefinedOpcode 0xFF = false := by decide

/-- A whole instruction, an operand byte missing, and an undefined byte at `pc`. -/
theorem witness_StepRunsTheDecodedInstruction :
    ((boot k1 13 [0, 0, 0, 0] [0x30, 0x00, 0x01]).run = .running ∧
      decode (boot k1 13 [0, 0, 0, 0] [0x30, 0x00, 0x01]).bytesAtPc = .ok (.add 0 1, [])) ∧
    decode (boot k1 14 [0, 0, 0, 0] [0x30, 0x00]).bytesAtPc = .error .truncated ∧
    decode (boot k1 15 [0, 0, 0, 0] [0x00]).bytesAtPc = .error (.unknownOpcode 0x00) := by
  decide
theorem witness_FetchOutsideMemoryErrs :
    ({ demo with pc := 16 } : State).run = .running ∧
      ({ demo with pc := 16 } : State).cfg.memSize ≤ 16 := by decide
/-- Every opcode byte at `pc`, with its operands inside memory and, where it has any, past it: the
fetching clause of every instruction's statement. -/
theorem witness_OperandBytesAreFetched :
    ∀ m ∈ Opcode.all,
      ((boot k1 0 [] [m.byte]).run = .running ∧
        (boot k1 0 [] [m.byte]).byteAt (boot k1 0 [] [m.byte]).pc = m.byte ∧
        ¬ k1.memSize < 0 + 1 + m.arity) ∧
      (boot k1 15 [] [m.byte]).byteAt (boot k1 15 [] [m.byte]).pc = m.byte ∧
      (m.arity ≠ 0 → k1.memSize < 15 + 1 + m.arity) := by decide
/-- An undefined byte inside memory, and a `pc` past it. -/
theorem witness_UndefinedOpcodeErrs :
    (demo.run = .running ∧ undefinedOpcode (demo.byteAt demo.pc) = true ∧
      ¬ demo.cfg.memSize ≤ demo.pc) ∧
    undefinedOpcode (({ demo with pc := 16 } : State).byteAt 16) = true := by decide
theorem witness_OnlyRunningSteps :
    demo.run = .running ∧ ({ demo with run := .halted } : State).run ≠ .running := by decide

theorem witness_IncAddsOne :
    demo.Inv ∧ (3 : Byte).toNat < demo.cfg.regCount ∧ demo.cfg.regCount ≤ (4 : Byte).toNat :=
  ⟨demo_legal, by decide, by decide⟩
theorem witness_DecSubtractsOne :
    demo.Inv ∧ (3 : Byte).toNat < demo.cfg.regCount ∧ demo.cfg.regCount ≤ (4 : Byte).toNat :=
  ⟨demo_legal, by decide, by decide⟩
theorem witness_MovLoadsTheImmediate :
    demo.Inv ∧ (3 : Byte).toNat < demo.cfg.regCount ∧ demo.cfg.regCount ≤ (4 : Byte).toNat :=
  ⟨demo_legal, by decide, by decide⟩
theorem witness_OutEmitsTheRegister :
    (3 : Byte).toNat < demo.cfg.regCount ∧ demo.cfg.regCount ≤ (4 : Byte).toNat := by decide
theorem witness_PushPushesTheRegister :
    ((3 : Byte).toNat < demo.cfg.regCount ∧ demo.os.length < demo.cfg.stackCap) ∧
      full.cfg.stackCap ≤ full.os.length ∧ full.cfg.regCount ≤ (4 : Byte).toNat := by decide
theorem witness_PopPopsIntoTheRegister :
    full.Inv ∧ empty.Inv ∧ (3 : Byte).toNat < full.cfg.regCount ∧ full.os = [1] ++ [2] ∧
      empty.os = [] ∧ full.cfg.regCount ≤ (4 : Byte).toNat :=
  ⟨full_legal, empty_legal, by decide, by decide, by decide, by decide⟩
theorem witness_CallPushesTheReturnAddress :
    ((15 : Byte).toNat < demo.cfg.memSize ∧ demo.cs.length < demo.cfg.callStackCap) ∧
      full.cfg.callStackCap ≤ full.cs.length ∧ demo.cfg.memSize ≤ (16 : Byte).toNat := by decide
theorem witness_RetPopsIntoPc : full.cs = [5] ++ [16] ∧ empty.cs = [] := by decide
theorem witness_LoadReadsMemory :
    demo.Inv ∧ ((3 : Byte).toNat < demo.cfg.regCount ∧ (15 : Byte).toNat < demo.cfg.memSize) ∧
      demo.cfg.regCount ≤ (4 : Byte).toNat ∧ demo.cfg.memSize ≤ (16 : Byte).toNat :=
  ⟨demo_legal, by decide, by decide, by decide⟩
theorem witness_StoreWritesMemory :
    ((3 : Byte).toNat < demo.cfg.regCount ∧ (15 : Byte).toNat < demo.cfg.memSize) ∧
      demo.cfg.regCount ≤ (4 : Byte).toNat ∧ demo.cfg.memSize ≤ (16 : Byte).toNat := by decide
/-- Effective address 15 in `demo`, 16 in `full`; base 16; register 4; no register 1. -/
theorem witness_LdIdxReadsIndexed :
    demo.Inv ∧ full.Inv ∧ single.Inv ∧ (3 : Byte).toNat < demo.cfg.regCount ∧
      1 < demo.cfg.regCount ∧ (10 : Byte).toNat + (demo.reg 1).toNat < demo.cfg.memSize ∧
      full.cfg.memSize ≤ (10 : Byte).toNat + (full.reg 1).toNat ∧
      demo.cfg.memSize ≤ (16 : Byte).toNat ∧ demo.cfg.regCount ≤ (4 : Byte).toNat ∧
      single.cfg.regCount < 2 :=
  ⟨demo_legal, full_legal, single_legal, by decide, by decide, by decide, by decide, by decide,
    by decide, by decide⟩
theorem witness_StIdxWritesIndexed :
    (3 : Byte).toNat < demo.cfg.regCount ∧ 1 < demo.cfg.regCount ∧
      (10 : Byte).toNat + (demo.reg 1).toNat < demo.cfg.memSize ∧
      full.cfg.memSize ≤ (10 : Byte).toNat + (full.reg 1).toNat ∧
      demo.cfg.memSize ≤ (16 : Byte).toNat ∧ demo.cfg.regCount ≤ (4 : Byte).toNat ∧
      single.cfg.regCount < 2 := by decide
theorem witness_AddWraps :
    demo.Inv ∧ ((3 : Byte).toNat < demo.cfg.regCount ∧ (0 : Byte).toNat < demo.cfg.regCount) ∧
      demo.cfg.regCount ≤ (4 : Byte).toNat :=
  ⟨demo_legal, by decide, by decide⟩
theorem witness_SubWraps :
    demo.Inv ∧ ((3 : Byte).toNat < demo.cfg.regCount ∧ (0 : Byte).toNat < demo.cfg.regCount) ∧
      demo.cfg.regCount ≤ (4 : Byte).toNat :=
  ⟨demo_legal, by decide, by decide⟩
theorem witness_MulKeepsTheLowByte :
    demo.Inv ∧ ((3 : Byte).toNat < demo.cfg.regCount ∧ (0 : Byte).toNat < demo.cfg.regCount) ∧
      demo.cfg.regCount ≤ (4 : Byte).toNat :=
  ⟨demo_legal, by decide, by decide⟩
theorem witness_DivRoundsDown :
    demo.Inv ∧ ((3 : Byte).toNat < demo.cfg.regCount ∧ (1 : Byte).toNat < demo.cfg.regCount) ∧
      demo.reg 1 ≠ 0 ∧ demo.reg 2 = 0 ∧ demo.cfg.regCount ≤ (4 : Byte).toNat :=
  ⟨demo_legal, by decide, by decide, by decide, by decide⟩
theorem witness_JmpJumps :
    (15 : Byte).toNat < demo.cfg.memSize ∧ demo.cfg.memSize ≤ (16 : Byte).toNat := by decide
theorem witness_JeqJumpsOnZero :
    (15 : Byte).toNat < demo.cfg.memSize ∧ demo.z = true ∧ full.z = false ∧
      demo.cfg.memSize ≤ (16 : Byte).toNat := by decide
theorem witness_JgtJumpsOnGreater :
    (15 : Byte).toNat < demo.cfg.memSize ∧ full.g = true ∧ demo.g = false ∧
      demo.cfg.memSize ≤ (16 : Byte).toNat := by decide
theorem witness_CmpSetsBothFlags :
    ((3 : Byte).toNat < demo.cfg.regCount ∧ (0 : Byte).toNat < demo.cfg.regCount) ∧
      demo.cfg.regCount ≤ (4 : Byte).toNat := by decide

theorem witness_RegisterFormsFrame :
    registerDest (.add 3 0) = some 3 ∧ ∃ t, exec (.add 3 0) demo = .next t := ⟨rfl, _, rfl⟩
theorem witness_StoreFormsFrame :
    (storeTarget demo (.stIdx 0 10) = some 15 ∧ ∃ t, exec (.stIdx 0 10) demo = .next t) ∧
      storeTarget demo (.store 0 15) = some 15 ∧ ∃ t, exec (.store 0 15) demo = .next t :=
  ⟨⟨rfl, _, rfl⟩, rfl, _, rfl⟩
theorem witness_StackFormsFrame :
    (∃ t, exec (.push 3) demo = .next t) ∧ (∃ t, exec (.pop 3) demo = .next t) ∧
      (∃ t, exec (.call 15) demo = .next t) ∧ ∃ t, exec .ret demo = .next t :=
  ⟨⟨_, rfl⟩, ⟨_, rfl⟩, ⟨_, rfl⟩, ⟨_, rfl⟩⟩
theorem witness_ControlFormsFrame :
    (isControlForm (.cmp 0 1) = true ∧ ∃ t, exec (.cmp 0 1) demo = .next t) ∧
      isControlForm .halt = true ∧ ∃ t, exec .halt demo = .next t :=
  ⟨⟨rfl, _, rfl⟩, rfl, _, rfl⟩

/-- An error and a Halt. -/
theorem witness_ErrorsChangeNothingElse :
    (∃ t, step demo = .next t ∧ t.run = .errored (.unknownOpcode 0x00)) ∧
      ∃ t, step (boot k1 15 [] [0xFF]) = .next t ∧ t.run = .halted :=
  ⟨⟨_, rfl, rfl⟩, ⟨_, rfl, rfl⟩⟩
/-- Each of the eight kinds is raised somewhere (R190). -/
theorem witness_ErrorsHaveTheirCause :
    after (boot k1 0 [0, 0, 0, 0] [0x01, 0x04]) State.run = some (.errored .invalidRegister) ∧
    after (boot k1 0 [0, 0, 0, 0] [0x40, 0x10]) State.run = some (.errored .invalidAddress) ∧
    after (boot { k1 with stackCap := 0 } 0 [0, 0, 0, 0] [0x10, 0x00]) State.run =
      some (.errored .stackOverflow) ∧
    after (boot k1 0 [0, 0, 0, 0] [0x11, 0x00]) State.run = some (.errored .stackUnderflow) ∧
    after (boot { k1 with callStackCap := 0 } 0 [0, 0, 0, 0] [0x12, 0x00]) State.run =
      some (.errored .callStackOverflow) ∧
    after (boot k1 0 [0, 0, 0, 0] [0x13]) State.run = some (.errored .callStackUnderflow) ∧
    after (boot k1 0 [5, 0, 0, 0] [0x33, 0x00, 0x01]) State.run =
      some (.errored .divisionByZero) ∧
    after (boot k1 0 [0, 0, 0, 0] [0xFE]) State.run =
      some (.errored (.unknownOpcode 0xFE)) := by decide
/-- A bad register beside a bad address, the missing index register, and a bad address alone. -/
theorem witness_OperandsAreValidatedFirst :
    (∃ r ∈ regOperands (.load 4 16), demo.cfg.regCount ≤ r.toNat) ∧
    ((Instr.ldIdx 0 0).opcode = .ldIdx ∧ single.cfg.regCount ≤ 1) ∧
    (∀ r ∈ regOperands (.stIdx 3 16), r.toNat < demo.cfg.regCount) ∧ 1 < demo.cfg.regCount ∧
    ∃ a ∈ addrOperands (.stIdx 3 16), demo.cfg.memSize ≤ a.toNat := by decide

theorem witness_StepKeepsLegalStates : demo.Inv ∧ ∃ t, step demo = .next t :=
  ⟨demo_legal, _, rfl⟩
/-- A construction at every bound of R221, and one past each; an address in the image and one past
it. -/
theorem witness_ConstructionChecksAndLoadsTheImage :
    (1 ≤ (⟨1, 1, 0, 0, 0⟩ : Config).regCount ∧ 1 ≤ (⟨1, 1, 0, 0, 0⟩ : Config).memSize ∧
      (⟨1, 1, 0, 0, 0⟩ : Config).entry < (⟨1, 1, 0, 0, 0⟩ : Config).memSize ∧
      [(0xFF : Byte)].length ≤ (⟨1, 1, 0, 0, 0⟩ : Config).memSize) ∧
    State.construct ⟨0, 1, 0, 0, 0⟩ [0xFF] = none ∧ State.construct ⟨1, 0, 0, 0, 0⟩ [] = none ∧
    State.construct ⟨1, 1, 0, 0, 1⟩ [] = none ∧
    State.construct ⟨1, 1, 0, 0, 0⟩ [0xFF, 0xFF] = none ∧
    0 < [(0xFF : Byte)].length ∧ [(0xFF : Byte)].length ≤ 1 := by decide
theorem witness_ConstructionIsLegal : ∃ s, State.construct k1 [0x01, 0x00] = some s := ⟨_, rfl⟩
/-- An entry point in the last cell, and an address in the image and one past it. -/
theorem witness_ConstructionValues :
    (∃ s, State.construct { k1 with entry := 15 } [0x01, 0x00] = some s) ∧
      1 < [(0x01 : Byte), 0x00].length ∧ [(0x01 : Byte), 0x00].length ≤ 2 :=
  ⟨⟨_, rfl⟩, by decide⟩
theorem witness_ConfigurationIsImmutable : ∃ t, step demo = .next t := ⟨_, rfl⟩
/-- A Cmp that completes, and a step that is neither Cmp, Jeq nor Jgt. -/
theorem witness_FlagsAreSetByCmpAndReadByJumps :
    (∃ t, step (boot k1 0 [1, 1, 0, 0] [0x43, 0x00, 0x01]) = .next t ∧ t.run = .running) ∧
      (boot k1 0 [1, 1, 0, 0] [0x43, 0x00, 0x01]).byteAt 0 = 0x43 ∧
      (∃ t, step demo = .next t) ∧ demo.byteAt demo.pc = 0x00 :=
  ⟨⟨_, rfl, rfl⟩, rfl, ⟨_, rfl⟩, rfl⟩
/-- An Out that completes, and one that fails. -/
theorem witness_OutputIsAppendedByOutAlone :
    (∃ t, step (boot k1 0 [1, 1, 0, 0] [0x03, 0x00]) = .next t ∧ t.run = .running) ∧
      (boot k1 0 [1, 1, 0, 0] [0x03, 0x00]).byteAt 0 = 0x03 ∧
      ∃ t, step (boot k1 0 [1, 1, 0, 0] [0x03, 0x04]) = .next t ∧
        t.run = .errored .invalidRegister :=
  ⟨⟨_, rfl, rfl⟩, rfl, ⟨_, rfl, rfl⟩⟩
theorem witness_StacksAreSeparate :
    (∃ t, step (boot k1 0 [1, 1, 0, 0] [0x12, 0x00]) = .next t) ∧
      (boot k1 0 [1, 1, 0, 0] [0x12, 0x00]).byteAt 0 = 0x12 := ⟨⟨_, rfl⟩, rfl⟩
theorem witness_LoadReturnsTheStoredByte :
    demo.Inv ∧ (3 : Byte).toNat < demo.cfg.regCount ∧ (0 : Byte).toNat < demo.cfg.regCount ∧
      (15 : Byte).toNat < demo.cfg.memSize := ⟨demo_legal, by decide, by decide, by decide⟩
/-- A Store of an opcode byte just past itself (Halt, whose byte is the last of memory, and Jmp,
whose operand follows), a Store into the operand byte of the next instruction, a Store into its own
bytes, and a StIdx of an undefined byte just past itself. -/
theorem witness_StoredByteIsFetchedNext :
    (let s := boot k1 12 [0xFF, 0, 0, 0] [0x21, 0x00, 0x0F]
     s.run = .running ∧ s.pc + 3 ≤ s.cfg.memSize ∧ 15 < s.cfg.memSize ∧
        (s.byteAt (s.pc + 1)).toNat < s.cfg.regCount ∧ s.byteAt s.pc = 0x21 ∧
        15 = (s.byteAt (s.pc + 2)).toNat ∧ 15 = s.pc + 3 ∧
        s.reg (s.byteAt (s.pc + 1)).toNat = Opcode.halt.byte ∧
        s.pc + 3 + 1 + Opcode.halt.arity ≤ s.cfg.memSize) ∧
    after (boot k1 0 [0x40, 0, 0, 0] [0x21, 0x00, 0x03, 0x00, 0x09])
      (fun t => after t State.pc) = some (some 9) ∧
    after (boot k1 0 [9, 0, 0, 0] [0x21, 0x00, 0x04, 0x40, 0x00])
      (fun t => after t State.pc) = some (some 9) ∧
    after (boot k1 0 [0x40, 0, 0, 0] [0x21, 0x00, 0x00]) (fun t => (t.byteAt 0, t.pc)) =
      some (0x40, 3) ∧
    (let s := boot k1 0 [0x05, 2, 0, 0] [0x23, 0x00, 0x01]
     s.run = .running ∧ s.pc + 3 ≤ s.cfg.memSize ∧ 3 < s.cfg.memSize ∧
        (s.byteAt (s.pc + 1)).toNat < s.cfg.regCount ∧ s.byteAt s.pc = 0x23 ∧
        1 < s.cfg.regCount ∧ 3 = (s.byteAt (s.pc + 2)).toNat + (s.reg 1).toNat ∧ 3 = s.pc + 3 ∧
        undefinedOpcode (s.reg (s.byteAt (s.pc + 1)).toNat) = true) := by decide
theorem witness_StackRoundTrips :
    demo.Inv ∧ ((3 : Byte).toNat < demo.cfg.regCount ∧ (0 : Byte).toNat < demo.cfg.regCount) ∧
      demo.os.length < demo.cfg.stackCap ∧ (15 : Byte).toNat < demo.cfg.memSize ∧
      demo.cs.length < demo.cfg.callStackCap ∧ full.cs = full.cs :=
  ⟨demo_legal, by decide, by decide, by decide, by decide, rfl⟩
/-- A step, a terminal CORE, a run that returns, and a Jmp to itself in the last two cells. -/
theorem witness_RunRepeatsTheStep :
    (∃ t, step (boot k1 0 [] [0xFF]) = .next t) ∧
      ({ demo with run := .halted } : State).run ≠ .running ∧
      (∃ t, (boot k1 0 [] [0xFF]).RunsTo t) ∧
      (boot k1 14 [] [0x40, 0x0E]).run = .running ∧
      (boot k1 14 [] [0x40, 0x0E]).byteAt 14 = 0x40 ∧ 14 + 2 ≤ k1.memSize ∧
      ((boot k1 14 [] [0x40, 0x0E]).byteAt (14 + 1)).toNat = 14 :=
  ⟨⟨_, rfl⟩, by decide, ⟨_, rfl, 1, rfl⟩, by decide, by decide, by decide, by decide⟩
theorem witness_StatusCodes :
    demo.run = .running ∧ ({ demo with run := .halted } : State).run = .halted ∧
      ({ demo with run := .errored (.unknownOpcode 5) } : State).run =
        .errored (.unknownOpcode 5) := by decide

/-- Two instruction lines, a literal and a label among their operands. -/
theorem witness_AssemblerEmitsInstructions :
    assemble ['M', 'o', 'v', ' ', '2', ',', '7', '\n', 'a', ':', '\n', 'J', 'm', 'p', ' ', 'a'] =
      .ok [0x04, 0x02, 0x07, 0x40, 0x03] := by decide
theorem witness_OffsetsMatchTheOutput :
    assembleLines [.instr ['R', 'e', 't'] [], .label ['a'], .instr ['J', 'm', 'p'] ['a']] =
        .ok [0x13, 0x40, 0x01] ∧
      [Line.instr ['R', 'e', 't'] [], .label ['a'], .instr ['J', 'm', 'p'] ['a']] =
        [.instr ['R', 'e', 't'] []] ++ .label ['a'] :: [.instr ['J', 'm', 'p'] ['a']] := by decide
theorem witness_CommentsAndBlankLinesEmitNothing :
    assembleLines ([.instr ['R', 'e', 't'] []] ++ .blank :: []) = .ok [0x13] := by decide
theorem witness_UnresolvedLabelIsUndefined :
    assembleLines [.label ['b'], .instr ['J', 'm', 'p'] ['a']] =
      .error (.unresolvedLabel ['a'] 2) := by decide
theorem witness_OperandResolution :
    OperandKind.reg ≠ .addr ∧ labelOffset [] ['a'] = none ∧
      labelOffset [(['a'], 255), (['b'], 256)] ['a'] = some 255 ∧
      labelOffset [(['a'], 255), (['b'], 256)] ['b'] = some 256 := by decide

end Sys2Proof.Tests
end

section
/-! SUPPORT. What passes validation (R82): the well-formed instructions, shape of operands by shape
of operands. -/

namespace Sys2Proof.Machine

theorem validate_reg_ok_iff {c : Config} {i : Instr} {r : Byte} (hr : regOperands i = [r])
    (hx : usesIndex i = false) (ha : addrOperands i = []) :
    validate c i = .ok () ↔ c.hasReg r = true := by
  simp [validate_reg hr hx ha, Config.hasReg]

theorem validate_regs_ok_iff {c : Config} {i : Instr} {r r' : Byte}
    (hr : regOperands i = [r, r']) (hx : usesIndex i = false) (ha : addrOperands i = []) :
    validate c i = .ok () ↔ (c.hasReg r && c.hasReg r') = true := by
  simp [validate_regs hr hx ha, Config.hasReg]

theorem validate_addr_ok_iff {c : Config} {i : Instr} {a : Byte} (hr : regOperands i = [])
    (hx : usesIndex i = false) (ha : addrOperands i = [a]) :
    validate c i = .ok () ↔ c.hasAddr a = true := by
  simp [validate_addr hr hx ha, Config.hasAddr]

theorem validate_reg_addr_ok_iff {c : Config} {i : Instr} {r a : Byte}
    (hr : regOperands i = [r]) (hx : usesIndex i = false) (ha : addrOperands i = [a]) :
    validate c i = .ok () ↔ (c.hasReg r && c.hasAddr a) = true := by
  simp [validate_reg_addr hr hx ha, Config.hasReg, Config.hasAddr, ite_eq_iff]

theorem validate_indexed_ok_iff {c : Config} {i : Instr} {r b : Byte}
    (hr : regOperands i = [r]) (hx : usesIndex i = true) (ha : addrOperands i = [b]) :
    validate c i = .ok () ↔ (c.hasReg r && c.hasReg 1 && c.hasAddr b) = true := by
  simp [validate_indexed hr hx ha, Config.hasReg, Config.hasAddr, ite_eq_iff]

/-- Settles O39, by the six shapes of operands. -/
theorem validationAcceptsTheWellFormed : Obligations.ValidationAcceptsTheWellFormed := by
  intro c i
  cases i with
  | inc r | dec r | out r | mov r imm | push r | pop r => exact validate_reg_ok_iff rfl rfl rfl
  | add d r | sub d r | mul d r | div d r | cmp d r => exact validate_regs_ok_iff rfl rfl rfl
  | call a | jmp a | jeq a | jgt a => exact validate_addr_ok_iff rfl rfl rfl
  | load r a | store r a => exact validate_reg_addr_ok_iff rfl rfl rfl
  | ldIdx r b | stIdx r b => exact validate_indexed_ok_iff rfl rfl rfl
  | ret | halt => exact iff_of_true (validate_none rfl rfl rfl) rfl

/-- A validated address operand names a cell (R53). -/
theorem addr_lt_of_validate {c : Config} {i : Instr} {a : Byte} (h : validate c i = .ok ())
    (ha : a ∈ addrOperands i) : a.toNat < c.memSize := by
  unfold validate at h
  split_ifs at h with _ _ hany
  simp only [List.any_eq_true, decide_eq_true_eq, not_exists, not_and, Nat.not_le] at hany
  exact hany a ha

end Sys2Proof.Machine
end

section
/-! SUPPORT. What one instruction may write (R24, R54), once for all instructions: the nine
register-writing forms and the two storing forms are one case each. Every frame, and the invariant,
is read off this. -/

namespace Sys2Proof.Machine

/-- The states an instruction can leave, with the bounds its validation and execution ensured. -/
inductive Effect (s : State) : Instr → State → Prop
  /-- R84: an error. -/
  | raise (i : Instr) (k : ErrKind) : Effect s i (s.raise k)
  /-- R24: a result in the destination register. -/
  | reg {i : Instr} {d : Byte} (hd : registerDest i = some d) (v : Byte) :
      Effect s i (finishReg i s d v)
  /-- R54: a byte at the address of a storing form. -/
  | store {i : Instr} {ea : Nat} (hea : storeTarget s i = some ea) (hlt : ea < s.cfg.memSize)
      (v : Byte) : Effect s i (finishStore i s ea v)
  | push (r : Byte) (hroom : s.os.length < s.cfg.stackCap) :
      Effect s (.push r) ((s.setOs (s.os ++ [s.reg r.toNat])).setPc (npcOf (.push r) s))
  | pop (r : Byte) {rest : List Byte} {v : Byte} (hos : s.os = rest ++ [v]) :
      Effect s (.pop r) (finishReg (.pop r) (s.setOs rest) r v)
  | call (a : Byte) (ha : a.toNat < s.cfg.memSize) (hroom : s.cs.length < s.cfg.callStackCap) :
      Effect s (.call a) ((s.setCs (s.cs ++ [npcOf (.call a) s])).setPc a.toNat)
  | ret {rest : List Nat} {a : Nat} (hcs : s.cs = rest ++ [a]) :
      Effect s .ret ((s.setCs rest).setPc a)
  | jmp (a : Byte) (ha : a.toNat < s.cfg.memSize) : Effect s (.jmp a) (s.setPc a.toNat)
  | jeq (a : Byte) (ha : a.toNat < s.cfg.memSize) :
      Effect s (.jeq a) (s.setPc (if s.z then a.toNat else npcOf (.jeq a) s))
  | jgt (a : Byte) (ha : a.toNat < s.cfg.memSize) :
      Effect s (.jgt a) (s.setPc (if s.g then a.toNat else npcOf (.jgt a) s))
  | out (r : Byte) : Effect s (.out r) ((s.emit (s.reg r.toNat)).setPc (npcOf (.out r) s))
  | cmp (a b : Byte) : Effect s (.cmp a b)
      ((s.setFlags (zeroFlag (s.reg a.toNat) (s.reg b.toNat))
        (greaterFlag (s.reg a.toNat) (s.reg b.toNat))).setPc (npcOf (.cmp a b) s))
  | halt : Effect s .halt ((s.setRun .halted).setPc (npcOf .halt s))

/-- All an instruction can do, with its form. -/
theorem exec_effect {i : Instr} {s t : State} (h : exec i s = .next t) : Effect s i t := by
  rcases exec_cases h with ⟨k, rfl⟩ | ⟨hv, hc⟩
  · exact .raise i k
  have haddr : ∀ a ∈ addrOperands i, a.toNat < s.cfg.memSize := fun a => addr_lt_of_validate hv
  cases i with
  | inc r | dec r | mov r imm | load r a | add d r | sub d r | mul d r =>
    obtain rfl := hc
    exact .reg rfl _
  | ldIdx r b =>
    obtain ⟨-, rfl⟩ := hc
    exact .reg rfl _
  | div d r =>
    obtain ⟨q, -, rfl⟩ := hc
    exact .reg rfl q
  | store r a =>
    obtain rfl := hc
    exact .store rfl (haddr a (List.mem_singleton.2 rfl)) _
  | stIdx r b =>
    obtain ⟨hlt, rfl⟩ := hc
    exact .store rfl hlt _
  | push r =>
    obtain ⟨hroom, rfl⟩ := hc
    exact .push r hroom
  | pop r =>
    obtain ⟨rest, v, hos, rfl⟩ := hc
    exact .pop r hos
  | call a =>
    obtain ⟨hroom, rfl⟩ := hc
    exact .call a (haddr a (List.mem_singleton.2 rfl)) hroom
  | ret =>
    obtain ⟨rest, a, hcs, rfl⟩ := hc
    exact .ret hcs
  | jmp a =>
    obtain rfl := hc
    exact .jmp a (haddr a (List.mem_singleton.2 rfl))
  | jeq a =>
    obtain rfl := hc
    exact .jeq a (haddr a (List.mem_singleton.2 rfl))
  | jgt a =>
    obtain rfl := hc
    exact .jgt a (haddr a (List.mem_singleton.2 rfl))
  | out r =>
    obtain rfl := hc
    exact .out r
  | cmp a b =>
    obtain rfl := hc
    exact .cmp a b
  | halt =>
    obtain rfl := hc
    exact .halt

/-- All a step can do: raise at the fetch, or the effect of the instruction whose opcode byte
stands at `pc` and whose bytes lie inside memory. -/
theorem step_effect {s t : State} (h : step s = .next t) :
    (∃ k, t = s.raise k) ∨
      ∃ i, i.opcode.byte = s.byteAt s.pc ∧ npcOf i s ≤ s.cfg.memSize ∧ Effect s i t := by
  rcases step_cases h with hk | ⟨m, hm, hb, he⟩
  · exact .inl hk
  · refine .inr ⟨_, ?_, ?_, exec_effect he⟩
    · rw [opcode_build, byte_of_decodeByte hm]
    · rwa [npcOf, opcode_build]

end Sys2Proof.Machine
end

section
/-! SUPPORT. The legality invariant: a construction meets it, and every update an instruction is
made of keeps it. -/

namespace Sys2Proof.Machine

theorem State.Inv.raise {s : State} (h : s.Inv) (k : ErrKind) : (s.raise k).Inv := { h with }

theorem State.Inv.setRun {s : State} (h : s.Inv) (r : RunState) : (s.setRun r).Inv := { h with }

theorem State.Inv.emit {s : State} (h : s.Inv) (v : Byte) : (s.emit v).Inv := { h with }

theorem State.Inv.setPc {s : State} (h : s.Inv) {n : Nat} (hn : n ≤ s.cfg.memSize) :
    (s.setPc n).Inv := { h with pcBound := hn }

theorem State.Inv.setReg {s : State} (h : s.Inv) (i : Nat) (v : Byte) : (s.setReg i v).Inv :=
  { h with regs := by simpa using h.regs }

theorem State.Inv.setByte {s : State} (h : s.Inv) {a : Nat} (ha : a < s.cfg.memSize) (v : Byte) :
    (s.setByte a v).Inv :=
  { h with
    memForm := Memory.wf_write h.memForm a v
    memBound := Memory.lt_of_mem_write h.memBound ha }

theorem State.Inv.setOs {s : State} (h : s.Inv) {os : List Byte}
    (hl : os.length ≤ s.cfg.stackCap) : (s.setOs os).Inv := { h with osBound := hl }

theorem State.Inv.setCs {s : State} (h : s.Inv) {cs : List Nat}
    (hl : cs.length ≤ s.cfg.callStackCap) (ha : ∀ a ∈ cs, a ≤ s.cfg.memSize) :
    (s.setCs cs).Inv := { h with csBound := hl, csAddrs := ha }

theorem State.Inv.setFlags {s : State} (h : s.Inv) {z g : Bool} (hf : ¬(z = true ∧ g = true)) :
    (s.setFlags z g).Inv := { h with flags := hf }

/-- R28: no comparison sets both flags. -/
theorem zeroFlag_greaterFlag_exclusive (a b : Byte) :
    ¬(zeroFlag a b = true ∧ greaterFlag a b = true) := by
  rintro ⟨hz, hg⟩
  obtain rfl : a = b := by simpa [zeroFlag] using hz
  simp [greaterFlag, BitVec.ult] at hg

/-- An instruction whose bytes lie inside memory keeps a legal state legal. -/
theorem Effect.inv {s t : State} {i : Instr} (he : Effect s i t) (hi : s.Inv)
    (hn : npcOf i s ≤ s.cfg.memSize) : t.Inv := by
  cases he with
  | raise i k => exact hi.raise k
  | reg hd v => exact (hi.setReg _ v).setPc hn
  | store hea hlt v => exact (hi.setByte hlt v).setPc hn
  | push r hroom => exact (hi.setOs (by simpa using hroom)).setPc hn
  | pop r hos =>
    have hl := hi.osBound
    rw [hos, List.length_append] at hl
    exact ((hi.setOs (Nat.le_of_add_right_le hl)).setReg _ _).setPc hn
  | call a ha hroom =>
    refine (hi.setCs (by simpa using hroom) fun b hb => ?_).setPc (Nat.le_of_lt ha)
    rcases List.mem_append.1 hb with hb | hb
    · exact hi.csAddrs b hb
    · rwa [List.mem_singleton.1 hb]
  | ret hcs =>
    have hl := hi.csBound
    have ha := hi.csAddrs
    rw [hcs, List.length_append] at hl
    simp only [hcs, List.mem_append, List.mem_singleton] at ha
    exact (hi.setCs (Nat.le_of_add_right_le hl) fun b hb => ha b (.inl hb)).setPc (ha _ (.inr rfl))
  | jmp a ha => exact hi.setPc (Nat.le_of_lt ha)
  | jeq a ha | jgt a ha =>
    refine hi.setPc ?_
    split
    · exact Nat.le_of_lt ha
    · exact hn
  | out r => exact (hi.emit _).setPc hn
  | cmp a b => exact (hi.setFlags (zeroFlag_greaterFlag_exclusive _ _)).setPc hn
  | halt => exact (hi.setRun _).setPc hn

/-- Settles O40: an error changes only `run`, and every instruction's effect keeps the invariant. -/
theorem stepKeepsLegalStates : Obligations.StepKeepsLegalStates := by
  intro s t hi h
  rcases step_effect h with ⟨k, rfl⟩ | ⟨i, -, hn, he⟩
  · exact hi.raise k
  · exact he.inv hi hn

/-- Settles O42: the memory by the laws of `Memory.writeBytes`, the rest by R221's conditions. -/
theorem constructionIsLegal : Obligations.ConstructionIsLegal := by
  intro c image s h
  unfold State.construct at h
  split at h
  · next hc =>
    cases h
    simp only [constructible, Bool.and_eq_true, decide_eq_true_eq] at hc
    obtain ⟨⟨⟨hreg, hmem⟩, hentry⟩, -⟩ := hc
    exact
      { config := ⟨hreg, hmem, hentry⟩
        regs := List.length_replicate
        pcBound := Nat.le_of_lt hentry
        memForm := Memory.wf_writeBytes Memory.wf_nil _ _ _
        memBound := Memory.lt_of_mem_writeBytes (by simp) _ _
        osBound := Nat.zero_le _
        csBound := Nat.zero_le _
        csAddrs := by simp
        flags := by simp }
  · cases h

end Sys2Proof.Machine
end

section
/-! SUPPORT. The frames of the four groups of instructions, and what a step leaves alone unless
the byte at `pc` says otherwise (R24, R27, R30, R31, R34, R54). -/

namespace Sys2Proof.Machine

/-! No instruction belongs to two groups. -/

theorem storeTarget_of_registerDest {i : Instr} {d : Byte} (h : registerDest i = some d)
    (s : State) : storeTarget s i = none := by
  cases i with
  | store r a | stIdx r b => cases h
  | _ => rfl

theorem registerDest_of_isControlForm {i : Instr} (h : isControlForm i = true) :
    registerDest i = none := by
  cases i with
  | out r | jmp a | jeq a | jgt a | cmp a b | halt => rfl
  | _ => cases h

theorem storeTarget_of_isControlForm {i : Instr} (h : isControlForm i = true) (s : State) :
    storeTarget s i = none := by
  cases i with
  | store r a | stIdx r b => cases h
  | _ => rfl

/-! What each effect keeps, field by field. -/

section
variable {s t : State} {i : Instr}

theorem Effect.cfg_eq (h : Effect s i t) : t.cfg = s.cfg := by
  cases h <;> rfl

theorem Effect.runKept (h : Effect s i t) (hi : i ≠ .halt) : RunKept s t := by
  cases h with
  | raise i k => exact .inr ⟨k, rfl⟩
  | halt => exact absurd rfl hi
  | _ => exact .inl rfl

theorem Effect.flags_eq (h : Effect s i t) (hi : i.opcode ≠ .cmp) : t.z = s.z ∧ t.g = s.g := by
  cases h with
  | cmp a b => exact absurd rfl hi
  | _ => exact ⟨rfl, rfl⟩

theorem Effect.out_eq (h : Effect s i t) (hi : i.opcode ≠ .out) : t.out = s.out := by
  cases h with
  | out r => exact absurd rfl hi
  | _ => rfl

theorem Effect.os_eq (h : Effect s i t) (hpush : i.opcode ≠ .push) (hpop : i.opcode ≠ .pop) :
    t.os = s.os := by
  cases h with
  | push r hroom => exact absurd rfl hpush
  | pop r hos => exact absurd rfl hpop
  | _ => rfl

theorem Effect.cs_eq (h : Effect s i t) (hcall : i.opcode ≠ .call) (hret : i.opcode ≠ .ret) :
    t.cs = s.cs := by
  cases h with
  | call a ha hroom => exact absurd rfl hcall
  | ret hcs => exact absurd rfl hret
  | _ => rfl

theorem Effect.byteAt_eq (h : Effect s i t) {a : Nat} (ha : storeTarget s i ≠ some a) :
    t.byteAt a = s.byteAt a := by
  cases h with
  | store hea hlt v =>
    exact State.byteAt_setByte_other s v fun hc => ha (hc ▸ hea)
  | _ => rfl

theorem Effect.reg_eq (h : Effect s i t) {j : Nat}
    (hd : ∀ d, registerDest i = some d → j ≠ d.toNat) (hp : ∀ r, i = .pop r → j ≠ r.toNat) :
    t.reg j = s.reg j := by
  cases h with
  | reg hd' v => exact finishReg_reg_other (hd _ hd')
  | pop r hos => exact finishReg_reg_other (hp r rfl)
  | _ => rfl

end

/-! The frames. -/

/-- Settles O32: an error, or a result in the destination register. -/
theorem registerFormsFrame : Obligations.RegisterFormsFrame := by
  intro i d hd s t h
  cases exec_effect h with
  | raise i k => exact ⟨fun _ _ => rfl, fun _ => rfl, rfl, rfl, rfl, rfl, rfl, rfl, .inr ⟨k, rfl⟩⟩
  | reg hd' v =>
    obtain rfl : d = _ := Option.some.inj (hd.symm.trans hd')
    exact ⟨fun _ => finishReg_reg_other, fun _ => rfl, rfl, rfl, rfl, rfl, rfl, rfl, .inl rfl⟩
  | store hea hlt v => cases (storeTarget_of_registerDest hd s).symm.trans hea
  | _ => cases hd

/-- Settles O33: an error, or a byte at the form's own address. -/
theorem storeFormsFrame : Obligations.StoreFormsFrame := by
  intro i s t ea hea h
  cases exec_effect h with
  | raise i k => exact ⟨fun _ _ => rfl, fun _ => rfl, rfl, rfl, rfl, rfl, rfl, rfl, .inr ⟨k, rfl⟩⟩
  | store hea' hlt v =>
    obtain rfl : ea = _ := Option.some.inj (hea.symm.trans hea')
    exact ⟨fun _ => State.byteAt_setByte_other s v, fun _ => rfl, rfl, rfl, rfl, rfl, rfl, rfl,
      .inl rfl⟩
  | reg hd v => cases (storeTarget_of_registerDest hd s).symm.trans hea
  | _ => cases hea

/-- Settles O34, field by field: of the four only Pop writes a register, none writes memory. -/
theorem stackFormsFrame : Obligations.StackFormsFrame := by
  constructor
  · rintro r i s t (rfl | rfl) h
    · have he := exec_effect h
      obtain ⟨hz, hg⟩ := he.flags_eq nofun
      exact ⟨fun j _ => he.reg_eq nofun nofun, fun a => he.byteAt_eq nofun,
        he.cs_eq nofun nofun, hz, hg, he.out_eq nofun, he.cfg_eq, he.runKept nofun⟩
    · have he := exec_effect h
      obtain ⟨hz, hg⟩ := he.flags_eq nofun
      refine ⟨fun j hj => he.reg_eq nofun fun q hq => ?_, fun a => he.byteAt_eq nofun,
        he.cs_eq nofun nofun, hz, hg, he.out_eq nofun, he.cfg_eq, he.runKept nofun⟩
      cases hq
      exact hj.resolve_left nofun
  · rintro a i s t (rfl | rfl) h
    all_goals
      have he := exec_effect h
      obtain ⟨hz, hg⟩ := he.flags_eq nofun
      exact ⟨fun j => he.reg_eq nofun nofun, fun c => he.byteAt_eq nofun,
        he.os_eq nofun nofun, hz, hg, he.out_eq nofun, he.cfg_eq, he.runKept nofun⟩

/-- Settles O35: an error, a jump, or the one thing Out, Cmp and Halt each do. -/
theorem controlFormsFrame : Obligations.ControlFormsFrame := by
  intro i s t hc h
  cases exec_effect h with
  | raise i k =>
    exact ⟨fun _ => rfl, fun _ => rfl, rfl, rfl, rfl, fun _ => ⟨rfl, rfl⟩, fun _ => rfl,
      fun _ => .inr ⟨k, rfl⟩⟩
  | jmp a ha | jeq a ha | jgt a ha =>
    exact ⟨fun _ => rfl, fun _ => rfl, rfl, rfl, rfl, fun _ => ⟨rfl, rfl⟩, fun _ => rfl,
      fun _ => .inl rfl⟩
  | out r =>
    exact ⟨fun _ => rfl, fun _ => rfl, rfl, rfl, rfl, fun _ => ⟨rfl, rfl⟩,
      fun hi => absurd rfl (hi r), fun _ => .inl rfl⟩
  | cmp a b =>
    exact ⟨fun _ => rfl, fun _ => rfl, rfl, rfl, rfl, fun hi => absurd rfl (hi a b), fun _ => rfl,
      fun _ => .inl rfl⟩
  | halt =>
    exact ⟨fun _ => rfl, fun _ => rfl, rfl, rfl, rfl, fun _ => ⟨rfl, rfl⟩, fun _ => rfl,
      fun hi => absurd rfl hi⟩
  | reg hd v => cases (registerDest_of_isControlForm hc).symm.trans hd
  | store hea hlt v => cases (storeTarget_of_isControlForm hc s).symm.trans hea
  | _ => cases hc

/-! Steps. -/

/-- An instruction standing at a byte is not of an opcode with another byte. -/
theorem opcode_ne_of_byte_ne {i : Instr} {b : Byte} {m : Opcode} (hb : i.opcode.byte = b)
    (hne : b ≠ m.byte) : i.opcode ≠ m := by
  rintro rfl
  exact hne hb.symm

/-- Settles O45. -/
theorem configurationIsImmutable : Obligations.ConfigurationIsImmutable := by
  intro s t h
  rcases step_effect h with ⟨k, rfl⟩ | ⟨i, -, -, he⟩
  · rfl
  · exact he.cfg_eq

/-- Settles O48: an error keeps both stacks, and an opcode byte other than the two keeps each. -/
theorem stacksAreSeparate : Obligations.StacksAreSeparate := by
  intro s t h
  rcases step_effect h with ⟨k, rfl⟩ | ⟨i, hb, -, he⟩
  · exact ⟨fun _ _ => rfl, fun _ _ => rfl⟩
  · exact
      ⟨fun hpush hpop => he.os_eq (opcode_ne_of_byte_ne hb hpush) (opcode_ne_of_byte_ne hb hpop),
        fun hcall hret => he.cs_eq (opcode_ne_of_byte_ne hb hcall) (opcode_ne_of_byte_ne hb hret)⟩

end Sys2Proof.Machine
end

section
/-! SUPPORT. The flags are read by Jeq and Jgt alone (R27): from the same state with other flags,
any other instruction does the same, flags apart. -/

namespace Sys2Proof.Machine

/-- An execution that computes the same, flags apart, makes `perform` do so: errors and validation
do not see the flags. -/
theorem perform_setFlags {i : Instr} {s t : State} {z g : Bool} {e e' : Except ErrKind State}
    (h : perform i s e = .next t)
    (he : ∀ z' g', e'.map (·.setFlags z' g') = e.map (·.setFlags z' g')) :
    ∃ u, perform i (s.setFlags z g) e' = .next u ∧ u.setFlags t.z t.g = t := by
  rcases perform_cases h with ⟨k, rfl, hv | ⟨hv, rfl⟩⟩ | ⟨hv, rfl⟩
  · exact ⟨_, perform_of_invalid e' hv, rfl⟩
  · cases e' with
    | error k' =>
      cases he z g
      exact ⟨_, perform_of_valid _ hv, rfl⟩
    | ok u => cases he z g
  · cases e' with
    | error k' => cases he z g
    | ok u => exact ⟨u, perform_of_valid _ hv, Except.ok.inj (he t.z t.g)⟩

/-- The same for an execution that starts with a check or a stack operation `x`, which does not see
the flags. -/
theorem perform_bind_setFlags {α : Type} {i : Instr} {s t : State} {z g : Bool}
    {x : Except ErrKind α} {e e' : α → Except ErrKind State} (h : perform i s (x >>= e) = .next t)
    (he : ∀ a z' g', (e' a).map (·.setFlags z' g') = (e a).map (·.setFlags z' g')) :
    ∃ u, perform i (s.setFlags z g) (x >>= e') = .next u ∧ u.setFlags t.z t.g = t := by
  refine perform_setFlags h ?_
  cases x with
  | error k => exact fun _ _ => rfl
  | ok a => exact he a

/-- Every instruction but Jeq and Jgt does the same from other flags, flags apart. -/
theorem exec_setFlags {i : Instr} {s t : State} (hjeq : i.opcode ≠ .jeq) (hjgt : i.opcode ≠ .jgt)
    (h : exec i s = .next t) (z g : Bool) :
    ∃ u, exec i (s.setFlags z g) = .next u ∧ u.setFlags t.z t.g = t := by
  cases i with
  | jeq a => exact absurd rfl hjeq
  | jgt a => exact absurd rfl hjgt
  | push r | pop r | call a | ldIdx r b | stIdx r b | div d r =>
    exact perform_bind_setFlags h fun _ _ _ => rfl
  | ret =>
    rw [exec_ret] at h ⊢
    exact perform_bind_setFlags h fun _ _ _ => rfl
  | halt =>
    rw [exec_halt] at h ⊢
    exact perform_setFlags h fun _ _ => rfl
  | _ => exact perform_setFlags h fun _ _ => rfl

/-- A step at any byte but those of Jeq and Jgt does the same from other flags, flags apart. -/
theorem step_setFlags {s t : State} (h : step s = .next t) (hjeq : s.byteAt s.pc ≠ 0x41)
    (hjgt : s.byteAt s.pc ≠ 0x42) (z g : Bool) :
    ∃ u, step (s.setFlags z g) = .next u ∧ u.setFlags t.z t.g = t := by
  have hr := running_of_step_next h
  rcases fetch_cases s with ⟨-, hf⟩ | ⟨-, -, hf⟩ | ⟨m, hm, -, hf⟩
  · rw [step_of_fetch_error hr hf] at h
    cases h
    exact ⟨_, step_of_fetch_error hr hf, rfl⟩
  · rw [step_of_fetch_unknown hr hf] at h
    cases h
    exact ⟨_, step_of_fetch_unknown hr hf, rfl⟩
  · rw [step_of_fetch_instr hr hf] at h
    have hb := byte_of_decodeByte hm
    rw [← opcode_build m fun k => s.byteAt (s.pc + k)] at hb
    obtain ⟨u, hu, ht⟩ :=
      exec_setFlags (opcode_ne_of_byte_ne hb hjeq) (opcode_ne_of_byte_ne hb hjgt) h z g
    exact ⟨u, (step_of_fetch_instr (s := s.setFlags z g) hr hf).trans hu, ht⟩

/-- R173: a Cmp that completes writes the two flags of its comparison. -/
theorem flags_of_completed_cmp {s t : State} (h : step s = .next t) (hb : s.byteAt s.pc = 0x43)
    (hr : t.run = .running) :
    t.z = zeroFlag (s.reg (s.byteAt (s.pc + 1)).toNat) (s.reg (s.byteAt (s.pc + 2)).toNat) ∧
      t.g = greaterFlag (s.reg (s.byteAt (s.pc + 1)).toNat)
        (s.reg (s.byteAt (s.pc + 2)).toNat) := by
  rcases step_cases h with ⟨k, rfl⟩ | ⟨m, hm, -, he⟩
  · cases hr
  · obtain rfl : m = .cmp := by
      rw [hb] at hm
      exact Tag.known.inj (hm.symm.trans (decodeByte_byte .cmp))
    cases exec_effect he with
    | raise i k => cases hr
    | reg hd v => cases hd
    | store hea hlt v => cases hea
    | cmp a b => exact ⟨rfl, rfl⟩

/-- Settles O46: only Cmp's effect has other flags; a completed Cmp takes them from the registers;
and no execution but those of Jeq and Jgt reads them. -/
theorem flagsAreSetByCmpAndReadByJumps : Obligations.FlagsAreSetByCmpAndReadByJumps := by
  intro s t h
  refine ⟨fun hcmp => ?_, fun hcmp hr z g => ?_, fun hjeq hjgt z g => ?_⟩
  · rcases step_effect h with ⟨k, rfl⟩ | ⟨i, hb, -, he⟩
    · exact ⟨rfl, rfl⟩
    · exact he.flags_eq (opcode_ne_of_byte_ne hb hcmp)
  · obtain ⟨u, hu, ht⟩ := step_setFlags h (by simp [hcmp]) (by simp [hcmp]) z g
    have hur : u.run = .running := (congrArg State.run ht).trans hr
    obtain ⟨huz, hug⟩ := flags_of_completed_cmp hu hcmp hur
    obtain ⟨htz, htg⟩ := flags_of_completed_cmp h hcmp hr
    have hut : u.setFlags t.z t.g = u := by
      rw [htz.trans huz.symm, htg.trans hug.symm]; rfl
    exact hu.trans (congrArg _ (hut.symm.trans ht))
  · exact step_setFlags h hjeq hjgt z g

end Sys2Proof.Machine
end

section
/-! SUPPORT. Memory coherence (R61, R65): a completed store is seen by every later load and by every
later fetch. -/

namespace Sys2Proof.Machine

/-! What a Running step at a known byte does. -/

/-- R75: no byte of the table is among the 235. -/
@[simp] theorem undefinedOpcode_byte (m : Opcode) : undefinedOpcode m.byte = false := by
  cases m <;> rfl

theorem decodeByte_of_undefinedOpcode {b : Byte} (h : undefinedOpcode b = true) :
    decodeByte b = .unknown b := by
  cases hd : decodeByte b with
  | known m => simp [← byte_of_decodeByte hd] at h
  | unknown c => rw [(unknown_of_decodeByte hd).1]

/-- R77, R89: an opcode byte of the table whose operand bytes lie inside memory. -/
theorem step_of_opcode {s : State} {m : Opcode} (hr : s.run = .running)
    (hb : s.byteAt s.pc = m.byte) (hn : s.pc + 1 + m.arity ≤ s.cfg.memSize) :
    step s = exec (m.build fun k => s.byteAt (s.pc + k)) s := by
  refine step_of_fetch_instr hr ?_
  have hpc : ¬s.cfg.memSize ≤ s.pc := by omega
  simp [fetch, hpc, hb, Nat.not_lt.2 hn]

/-- R181: an undefined opcode byte inside memory. -/
theorem step_of_undefinedOpcode {s : State} (hr : s.run = .running)
    (hb : undefinedOpcode (s.byteAt s.pc) = true) (hpc : s.pc < s.cfg.memSize) :
    step s = errsWith s (.unknownOpcode (s.byteAt s.pc)) := by
  refine step_of_fetch_unknown hr ?_
  simp [fetch, Nat.not_le.2 hpc, decodeByte_of_undefinedOpcode hb]

/-! What the memory instructions commit on valid operands. -/

section
variable {s : State} {r a : Byte}

/-- R150. -/
theorem exec_load_of_valid (hr : r.toNat < s.cfg.regCount) (ha : a.toNat < s.cfg.memSize) :
    exec (.load r a) s = .next (finishReg (.load r a) s r (s.byteAt a.toNat)) :=
  perform_of_valid _ <| (validate_reg_addr_ok_iff rfl rfl rfl).2 <| by
    simp [Config.hasReg, Config.hasAddr, hr, ha]

/-- R151. -/
theorem exec_store_of_valid (hr : r.toNat < s.cfg.regCount) (ha : a.toNat < s.cfg.memSize) :
    exec (.store r a) s = .next (finishStore (.store r a) s a.toNat (s.reg r.toNat)) :=
  perform_of_valid _ <| (validate_reg_addr_ok_iff rfl rfl rfl).2 <| by
    simp [Config.hasReg, Config.hasAddr, hr, ha]

/-- R153: an effective address inside memory has its base there too. -/
theorem exec_stIdx_of_valid (hr : r.toNat < s.cfg.regCount) (hx : 1 < s.cfg.regCount)
    (hea : indexedAddress s a < s.cfg.memSize) :
    exec (.stIdx r a) s =
      .next (finishStore (.stIdx r a) s (indexedAddress s a) (s.reg r.toNat)) := by
  have ha : a.toNat < s.cfg.memSize := Nat.lt_of_le_of_lt (Nat.le_add_right ..) hea
  have hv : validate s.cfg (.stIdx r a) = .ok () :=
    (validate_indexed_ok_iff rfl rfl rfl).2 <| by
      simp [Config.hasReg, Config.hasAddr, hr, hx, ha]
  rw [exec_stIdx, execStIdx, perform_of_valid _ hv, effectiveAddress_of_lt hea]
  rfl

end

/-- Memory after a store. -/
theorem finishStore_byteAt (i : Instr) (s : State) (ea : Nat) (v : Byte) (a : Nat) :
    (finishStore i s ea v).byteAt a = if a = ea then v else s.byteAt a :=
  Memory.read_write ..

/-- A step at a Store or a StIdx on valid operands commits the register's byte at the effective
address `ea`; the two differ only in what `ea` is. -/
theorem step_of_storing {s : State} {ea : Nat} (hrun : s.run = .running)
    (hpc : s.pc + 3 ≤ s.cfg.memSize) (hea : ea < s.cfg.memSize)
    (hr : (s.byteAt (s.pc + 1)).toNat < s.cfg.regCount)
    (h : (s.byteAt s.pc = 0x21 ∧ ea = (s.byteAt (s.pc + 2)).toNat) ∨
      (s.byteAt s.pc = 0x23 ∧ 1 < s.cfg.regCount ∧
        ea = (s.byteAt (s.pc + 2)).toNat + (s.reg 1).toNat)) :
    ∃ i, npcOf i s = s.pc + 3 ∧
      step s = .next (finishStore i s ea (s.reg (s.byteAt (s.pc + 1)).toNat)) := by
  rcases h with ⟨hb, rfl⟩ | ⟨hb, hx, rfl⟩
  · have hs := step_of_opcode (m := .store) hrun hb hpc
    exact ⟨_, rfl, hs.trans (exec_store_of_valid hr hea)⟩
  · have hs := step_of_opcode (m := .stIdx) hrun hb hpc
    exact ⟨_, rfl, hs.trans (exec_stIdx_of_valid hr hx hea)⟩

/-- Settles O49: the Load reads the cell the Store wrote, into a register the Store kept. -/
theorem loadReturnsTheStoredByte : Obligations.LoadReturnsTheStoredByte := by
  intro r q a s hi hr hq ha
  refine ⟨_, _, exec_store_of_valid hr ha, exec_load_of_valid hq ha, ?_, rfl⟩
  rw [finishReg_reg_same, finishStore_byteAt, if_pos rfl]
  rwa [finishStore_x, hi.regs]

/-- Settles O50: a fetch reads nothing but memory, and memory after the store is `seen`. -/
theorem storedByteIsFetchedNext : Obligations.StoredByteIsFetchedNext := by
  intro s ea hrun hpc hea hr hop seen
  obtain ⟨i, hn, hstep⟩ := step_of_storing hrun hpc hea hr hop
  have hseen := finishStore_byteAt i s ea (s.reg (s.byteAt (s.pc + 1)).toNat)
  refine ⟨_, hstep, hn ▸ rfl, hseen, fun u hu _ hmem => ?_⟩
  have hfetch : u.byteAt = seen := funext fun a => (State.byteAt_congr hmem a).trans (hseen a)
  rw [← hfetch]
  exact ⟨fun m => step_of_opcode hu, step_of_undefinedOpcode hu⟩

end Sys2Proof.Machine
end

section
/-! SUPPORT. Decoding inverts encoding (R70, R71, R74, R75): an instruction is its opcode and its
operand bytes, and the decoder takes exactly these off the front of a byte string. -/

namespace Sys2Proof

/-! An instruction is its opcode and its operand bytes. -/

theorem arity_le_two (m : Opcode) : m.arity ≤ 2 := by cases m <;> decide

theorem byte_injective {m m' : Opcode} (h : m.byte = m'.byte) : m = m' :=
  Tag.known.inj <| by rw [← decodeByte_byte m, h, decodeByte_byte]

theorem eq_of_opcode_eq_of_operandBytes_eq {i j : Instr} (ho : i.opcode = j.opcode)
    (hb : i.operandBytes = j.operandBytes) : i = j := by
  rw [← build_operandBytes i [], ho, hb, build_operandBytes]

/-- R80: a built instruction takes operand 1 up to operand `arity`. -/
theorem operandBytes_build (m : Opcode) (f : Nat → Byte) :
    (m.build f).operandBytes = (List.range m.arity).map (fun k => f (k + 1)) := by
  cases m <;> rfl

/-- A built instruction depends on no operand past its arity. -/
theorem build_congr {m : Opcode} {f g : Nat → Byte} (h : ∀ k < m.arity, f (k + 1) = g (k + 1)) :
    m.build f = m.build g := by
  refine eq_of_opcode_eq_of_operandBytes_eq (by simp) ?_
  rw [operandBytes_build, operandBytes_build]
  exact List.map_congr_left fun k hk => h k (List.mem_range.1 hk)

@[simp] theorem length_encode (i : Instr) : (encode i).length = i.length := by
  simp [encode, Instr.length, Nat.add_comm]

/-! What the decoder answers, opcode byte by opcode byte. -/

theorem decode_unknown_cons {op b : Byte} (h : decodeByte op = .unknown b) (tail : List Byte) :
    decode (op :: tail) = .error (.unknownOpcode b) := by
  simp [decode, h]

theorem decode_truncated_cons {op : Byte} {m : Opcode} {tail : List Byte}
    (h : decodeByte op = .known m) (hl : tail.length < m.arity) :
    decode (op :: tail) = .error .truncated := by
  simp [decode, h, hl]

theorem decode_known_cons {op : Byte} {m : Opcode} {tail : List Byte}
    (h : decodeByte op = .known m) (hl : m.arity ≤ tail.length) :
    decode (op :: tail) = .ok (m.build (fun k => tail.getD (k - 1) 0), tail.drop m.arity) := by
  simp [decode, h, Nat.not_lt.2 hl]

/-- Settles O1: the operand bytes are the first `arity` bytes after the opcode byte. -/
theorem decodeEncodeRoundTrip : Obligations.DecodeEncodeRoundTrip := by
  intro i rest
  have hl : i.opcode.arity ≤ (i.operandBytes ++ rest).length := by simp
  rw [encode, List.cons_append, decode_known_cons (decodeByte_byte _) hl, build_operandBytes,
    ← length_operandBytes, List.drop_left]

/-- The operand bytes of a built instruction whose operands are a list's entries are that list's
first bytes. -/
theorem operandBytes_build_getD {m : Opcode} {tail : List Byte} (hl : m.arity ≤ tail.length) :
    (m.build (fun k => tail.getD (k - 1) 0)).operandBytes = tail.take m.arity := by
  rw [operandBytes_build]
  refine List.ext_getElem (by simpa using hl) fun k hk _ => ?_
  have hk' : k < tail.length := Nat.lt_of_lt_of_le (by simpa using hk) hl
  simp [hk']

/-- Settles O2: a decoded instruction is built from the bytes taken. -/
theorem decodedBytesAreTheEncoding : Obligations.DecodedBytesAreTheEncoding := by
  intro bytes i rest h
  cases bytes with
  | nil => cases h
  | cons op tail =>
    cases hd : decodeByte op with
    | unknown b => cases (decode_unknown_cons hd tail).symm.trans h
    | known m =>
      rcases Nat.lt_or_ge tail.length m.arity with hl | hl
      · cases (decode_truncated_cons hd hl).symm.trans h
      · cases (decode_known_cons hd hl).symm.trans h
        rw [encode, opcode_build, byte_of_decodeByte hd, operandBytes_build_getD hl,
          List.cons_append, List.take_append_drop]

/-- Settles O5: the opcode byte is its encoding's first byte, and no two opcodes share one. -/
theorem opcodeByteDecidesLength : Obligations.OpcodeByteDecidesLength := by
  intro op tail tail' rest rest' i j hi hj
  obtain ⟨hop, -⟩ := List.cons.inj (decodedBytesAreTheEncoding _ _ _ hi)
  obtain ⟨hop', -⟩ := List.cons.inj (decodedBytesAreTheEncoding _ _ _ hj)
  have ho : i.opcode = j.opcode := byte_injective (hop.symm.trans hop')
  have hl := arity_le_two i.opcode
  simp only [length_encode, Instr.length]
  exact ⟨by rw [ho], ho, by omega, by omega, congrArg some hop.symm⟩

/-- Settles O3, by running the decoder on the nine words. -/
theorem specWordsDecode : Obligations.SpecWordsDecode := by
  unfold Obligations.SpecWordsDecode
  decide

end Sys2Proof
end

section
/-! SUPPORT. The bytes outside the table (R75). -/

namespace Sys2Proof.Machine

/-- The six ranges leave out no byte outside the table. -/
theorem undefinedOpcode_of_decodeByte {b c : Byte} (h : decodeByte b = .unknown c) :
    undefinedOpcode b = true := by
  have hne : ∀ m ∈ Opcode.all, m.byte.toNat ≠ b.toNat := fun m _ hm =>
    (unknown_of_decodeByte h).2 m (BitVec.eq_of_toNat_eq hm)
  simp only [Opcode.all, List.forall_mem_cons, Opcode.byte, Opcode.row, BitVec.ofNat_eq_ofNat,
    BitVec.toNat_ofNat] at hne
  simp only [undefinedOpcode, Bool.or_eq_true, Bool.and_eq_true, decide_eq_true_eq]
  omega

/-- Settles O4: the rows by evaluation, the other bytes because the ranges are the table's
complement. -/
theorem decoderReadsTheOpcodeMap : Obligations.DecoderReadsTheOpcodeMap := by
  refine ⟨by decide, fun b hb => ?_, fun b hb => ?_⟩
  · have hd := decodeByte_of_undefinedOpcode hb
    exact ⟨hd, by rw [hd]; rfl⟩
  · cases hd : decodeByte b with
    | known m => exact ⟨m, rfl⟩
    | unknown c => simp [undefinedOpcode_of_decodeByte hd] at hb

end Sys2Proof.Machine
end

section
/-! SUPPORT. Fetching is decoding the bytes at `pc` (R76, R77, R89). -/

namespace Sys2Proof.Machine

/-- R76: a `pc` outside memory. -/
theorem fetch_of_memSize_le {s : State} (h : s.cfg.memSize ≤ s.pc) :
    fetch s = .error .invalidAddress :=
  if_pos h

/-- Settles O7: the step raises what the fetch check answers. -/
theorem fetchOutsideMemoryErrs : Obligations.FetchOutsideMemoryErrs :=
  fun _ hr h => step_of_fetch_error hr (fetch_of_memSize_le h)

/-- R77: an opcode byte of the table, wherever `pc` and the operand bytes lie. -/
theorem fetch_of_decodeByte_known {s : State} {m : Opcode}
    (h : decodeByte (s.byteAt s.pc) = .known m) :
    fetch s = if s.cfg.memSize < s.pc + 1 + m.arity then .error .invalidAddress
      else .ok (.instr (m.build fun k => s.byteAt (s.pc + k))) := by
  by_cases hpc : s.cfg.memSize ≤ s.pc
  · rw [fetch_of_memSize_le hpc, if_pos (by omega)]
  · simp [fetch, hpc, h]

/-- Settles O8: the fetch compares the end of the operand bytes with `MEM_SIZE`. -/
theorem operandBytesAreFetched : Obligations.OperandBytesAreFetched := by
  intro m s hr hb
  split
  · next hlt =>
    refine step_of_fetch_error hr ?_
    rw [fetch_of_decodeByte_known (hb ▸ decodeByte_byte m), if_pos hlt]
  · next hge => exact step_of_opcode hr hb (Nat.not_lt.1 hge)

/-- What a fetch delivers where the bytes at `pc` decode so. -/
def fetchedOf : Except DecodeReject (Instr × List Byte) → Except ErrKind Fetched
  | .ok (i, _) => .ok (.instr i)
  | .error .truncated => .error .invalidAddress
  | .error (.unknownOpcode op) => .ok (.unknown op)

theorem bytesAtPc_of_memSize_le {s : State} (h : s.cfg.memSize ≤ s.pc) : s.bytesAtPc = [] := by
  simp [State.bytesAtPc, Nat.sub_eq_zero_of_le h]

/-- Inside memory the bytes at `pc` are the opcode byte and up to two more. -/
theorem bytesAtPc_of_lt {s : State} (h : s.pc < s.cfg.memSize) :
    s.bytesAtPc = s.byteAt s.pc ::
      (List.range (min 2 (s.cfg.memSize - s.pc - 1))).map fun k => s.byteAt (s.pc + (k + 1)) := by
  have hn : min Config.maxInstrLength (s.cfg.memSize - s.pc) =
      min 2 (s.cfg.memSize - s.pc - 1) + 1 := by
    simp only [Config.maxInstrLength]; omega
  rw [State.bytesAtPc, hn, List.range_succ_eq_map, List.map_cons, List.map_map]
  rfl

/-- R80: the fetch stages deliver what the bytes at `pc` decode to. Three bytes are enough for any
arity, and bytes short of an arity are those that memory ends before. -/
theorem fetch_eq_fetchedOf_decode (s : State) : fetch s = fetchedOf (decode s.bytesAtPc) := by
  rcases Nat.lt_or_ge s.pc s.cfg.memSize with hpc | hpc
  · rw [bytesAtPc_of_lt hpc]
    cases hd : decodeByte (s.byteAt s.pc) with
    | unknown op =>
      rw [decode_unknown_cons hd]
      simp [fetch, Nat.not_le.2 hpc, hd, fetchedOf]
    | known m =>
      have ha := arity_le_two m
      rw [fetch_of_decodeByte_known hd]
      split
      · next hlt =>
        rw [decode_truncated_cons hd (by simp; omega)]
        rfl
      · next hge =>
        rw [decode_known_cons hd (by simp; omega)]
        refine congrArg (fun i => Except.ok (Fetched.instr i)) (build_congr fun k hk => ?_)
        have hk' : k < min 2 (s.cfg.memSize - s.pc - 1) := by omega
        simp [hk']
  · rw [bytesAtPc_of_memSize_le hpc]
    exact fetch_of_memSize_le hpc

/-- Settles O6: each answer of the decoder is one of the fetch, which the step follows. -/
theorem stepRunsTheDecodedInstruction : Obligations.StepRunsTheDecodedInstruction := by
  intro s hr
  have hf := fetch_eq_fetchedOf_decode s
  refine ⟨fun i rest h => ?_, fun h => ?_, fun op h => ?_⟩ <;> rw [h] at hf
  · exact step_of_fetch_instr hr hf
  · exact step_of_fetch_error hr hf
  · exact step_of_fetch_unknown hr hf

end Sys2Proof.Machine
end

section
/-! SUPPORT. The two passes agree on offsets (R109, R111, R114): both advance by the size of each
line, and pass 1 records the advance so far at each label. -/

namespace Sys2Proof.Assembler

/-- An assembled program passed pass 1, and is what pass 2 emits with its labels. -/
theorem assembleLines_ok {ls : List Line} {bytes : List Byte} (h : assembleLines ls = .ok bytes) :
    ∃ offset labels, pass1 1 0 [] ls = .ok (offset, labels) ∧ pass2 labels 1 ls = .ok bytes := by
  unfold assembleLines at h
  split at h
  · cases h
  · next offset labels h1 => exact ⟨offset, labels, h1, h⟩

/-! Labels. -/

theorem labelOffset_append (labels more : Labels) (name : Text) :
    labelOffset (labels ++ more) name =
      (labelOffset labels name).or (labelOffset more name) := by
  simp only [labelOffset, List.find?_append]
  cases labels.find? (fun l => l.1 == name) <;> rfl

theorem labelOffset_singleton (name : Text) (v : Nat) :
    labelOffset [(name, v)] name = some v := by
  simp [labelOffset]

/-! Pass 1. -/

/-- R109: pass 1 over a line that it accepts: it advances by the line's size and adds the label the
line defines. -/
theorem pass1_cons_ok {n offset : Nat} {labels : Labels} {l : Line} {ls : List Line}
    {r : Nat × Labels} (h : pass1 n offset labels (l :: ls) = .ok r) :
    ∃ new, pass1 (n + 1) (offset + lineSize l) (labels ++ new) ls = .ok r ∧
      ∀ name, l = .label name → labelOffset labels name = none ∧ new = [(name, offset)] := by
  cases l with
  | blank => exact ⟨[], by simpa [lineSize, pass1] using h, nofun⟩
  | label name =>
    rw [pass1] at h
    split at h
    · cases h
    · next hnone =>
      refine ⟨_, h, ?_⟩
      rintro _ ⟨⟩
      exact ⟨hnone, rfl⟩
  | instr mnemonic operands =>
    rw [pass1] at h
    split at h
    · cases h
    · next m hm => exact ⟨[], by simpa [lineSize, hm, Nat.add_assoc] using h, nofun⟩

/-- R109: pass 1's final offset. -/
theorem pass1_offset {ls : List Line} {n offset offset' : Nat} {labels labels' : Labels}
    (h : pass1 n offset labels ls = .ok (offset', labels')) :
    offset' = offset + (ls.map lineSize).sum := by
  induction ls generalizing n offset labels with
  | nil => cases h; rfl
  | cons l ls ih =>
    obtain ⟨new, h', -⟩ := pass1_cons_ok h
    rw [ih h', List.map_cons, List.sum_cons, Nat.add_assoc]

/-- Pass 1 never redefines a label. -/
theorem pass1_keeps_label {ls : List Line} {n offset offset' v : Nat} {labels labels' : Labels}
    {name : Text} (h : pass1 n offset labels ls = .ok (offset', labels'))
    (hv : labelOffset labels name = some v) : labelOffset labels' name = some v := by
  induction ls generalizing n offset labels with
  | nil => cases h; exact hv
  | cons l ls ih =>
    obtain ⟨new, h', -⟩ := pass1_cons_ok h
    exact ih h' (by rw [labelOffset_append, hv]; rfl)

/-- R109: a label's recorded offset is the advance over the lines before its definition. -/
theorem pass1_label {before after : List Line} {n offset offset' : Nat} {labels labels' : Labels}
    {name : Text}
    (h : pass1 n offset labels (before ++ .label name :: after) = .ok (offset', labels')) :
    labelOffset labels' name = some (offset + (before.map lineSize).sum) := by
  induction before generalizing n offset labels with
  | nil =>
    obtain ⟨new, h', hnew⟩ := pass1_cons_ok h
    obtain ⟨hnone, rfl⟩ := hnew name rfl
    refine pass1_keeps_label h' ?_
    rw [labelOffset_append, hnone, labelOffset_singleton]
    rfl
  | cons l before ih =>
    obtain ⟨new, h', -⟩ := pass1_cons_ok h
    rw [ih h', List.map_cons, List.sum_cons, Nat.add_assoc]

/-! Pass 2. -/

/-- R111: a line that pass 2 accepts emits as many bytes as its size. -/
theorem pass2_cons_ok {labels : Labels} {n : Nat} {l : Line} {ls : List Line} {bytes : List Byte}
    (h : pass2 labels n (l :: ls) = .ok bytes) :
    ∃ front back, bytes = front ++ back ∧ front.length = lineSize l ∧
      pass2 labels (n + 1) ls = .ok back := by
  cases l with
  | blank | label name => exact ⟨[], bytes, rfl, rfl, h⟩
  | instr mnemonic operands =>
    rw [pass2] at h
    cases he : emitLine labels n mnemonic operands with
    | error e => rw [he] at h; cases h
    | ok front =>
      cases hp : pass2 labels (n + 1) ls with
      | error e => rw [he, hp] at h; cases h
      | ok back =>
        rw [he, hp] at h
        cases h
        obtain ⟨m, vals, hm, rfl, hvals, -⟩ := emitLine_ok he
        exact ⟨_, back, rfl, by simp [lineSize, hm, hvals, Nat.add_comm], rfl⟩

/-- R114: the output's length. -/
theorem pass2_length {labels : Labels} {ls : List Line} {n : Nat} {bytes : List Byte}
    (h : pass2 labels n ls = .ok bytes) : bytes.length = (ls.map lineSize).sum := by
  induction ls generalizing n bytes with
  | nil => cases h; rfl
  | cons l ls ih =>
    obtain ⟨front, back, rfl, hfront, hback⟩ := pass2_cons_ok h
    rw [List.length_append, hfront, ih hback, List.map_cons, List.sum_cons]

/-- Settles O55: both passes advance by the same sizes. -/
theorem offsetsMatchTheOutput : Obligations.OffsetsMatchTheOutput := by
  intro ls bytes h
  obtain ⟨offset, labels, h1, h2⟩ := assembleLines_ok h
  have hlen := pass2_length h2
  have hoff : offset = bytes.length := by rw [pass1_offset h1, hlen, Nat.zero_add]
  subst hoff
  refine ⟨hlen, labels, h1, ?_⟩
  rintro before name after rfl
  rw [pass1_label h1, Nat.zero_add]

end Sys2Proof.Assembler
end

section
/-! SUPPORT. The register instructions (40_register_ops.md): each checks its one register operand,
then writes a register or emits. -/

namespace Sys2Proof.Machine

/-! What an instruction answers whose one checked operand is a register (R82). -/

section
variable {i : Instr} {r : Byte} {s : State} (e : Except ErrKind State)

theorem perform_of_reg_lt (hr : regOperands i = [r]) (hx : usesIndex i = false)
    (ha : addrOperands i = []) (h : r.toNat < s.cfg.regCount) : perform i s e = settle s e :=
  perform_of_valid e <| (validate_reg hr hx ha).trans (if_neg (Nat.not_le.2 h))

theorem perform_of_reg_ge (hr : regOperands i = [r]) (hx : usesIndex i = false)
    (ha : addrOperands i = []) (h : s.cfg.regCount ≤ r.toNat) :
    perform i s e = errsWith s .invalidRegister :=
  perform_of_invalid e <| (validate_reg hr hx ha).trans (if_pos h)

end

/-- R21, R24, R81: a result in a register of a legal state, the other registers, and the frame. -/
theorem finishReg_frame {s : State} {r : Byte} (hi : s.Inv) (hr : r.toNat < s.cfg.regCount)
    (i : Instr) (v : Byte) :
    (finishReg i s r v).reg r.toNat = v ∧
      (∀ j, j ≠ r.toNat → (finishReg i s r v).reg j = s.reg j) ∧
      finishReg i s r v = { s with x := (finishReg i s r v).x, pc := npcOf i s } :=
  ⟨finishReg_reg_same (hi.regs ▸ hr), fun _ => finishReg_reg_other, rfl⟩

/-- R162, for any two bytes. -/
theorem toNat_aluAdd (a b : Byte) : (aluAdd a b).toNat = (a.toNat + b.toNat) % 256 :=
  BitVec.toNat_add a b

/-- R163, for any two bytes. -/
theorem toNat_aluSub (a b : Byte) : (aluSub a b).toNat = (a.toNat + (256 - b.toNat)) % 256 := by
  rw [aluSub, BitVec.toNat_sub, Nat.add_comm]

/-- Settles O11: the ALU's sum with 1, in the operand's register. -/
theorem incAddsOne : Obligations.IncAddsOne := by
  refine ⟨operandBytesAreFetched .inc, fun r s hi =>
    ⟨fun hr => ?_, perform_of_reg_ge _ rfl rfl rfl⟩⟩
  obtain ⟨hval, hother, hframe⟩ := finishReg_frame hi hr (.inc r) (aluAdd (s.reg r.toNat) 1)
  have hsum := (congrArg BitVec.toNat hval).trans (toNat_aluAdd _ 1)
  exact ⟨_, perform_of_reg_lt _ rfl rfl rfl hr, hsum, hother, hframe⟩

/-- Settles O12: the ALU's difference with 1, in the operand's register. -/
theorem decSubtractsOne : Obligations.DecSubtractsOne := by
  refine ⟨operandBytesAreFetched .dec, fun r s hi =>
    ⟨fun hr => ?_, perform_of_reg_ge _ rfl rfl rfl⟩⟩
  obtain ⟨hval, hother, hframe⟩ := finishReg_frame hi hr (.dec r) (aluSub (s.reg r.toNat) 1)
  have hdiff := (congrArg BitVec.toNat hval).trans (toNat_aluSub _ 1)
  exact ⟨_, perform_of_reg_lt _ rfl rfl rfl hr, hdiff, hother, hframe⟩

/-- Settles O13: `emit` and the natural advance. -/
theorem outEmitsTheRegister : Obligations.OutEmitsTheRegister :=
  ⟨operandBytesAreFetched .out, fun _ _ =>
    ⟨perform_of_reg_lt _ rfl rfl rfl, perform_of_reg_ge _ rfl rfl rfl⟩⟩

/-- Settles O14: the immediate is no checked operand. -/
theorem movLoadsTheImmediate : Obligations.MovLoadsTheImmediate :=
  ⟨operandBytesAreFetched .mov, fun r imm _ hi =>
    ⟨fun hr => ⟨_, perform_of_reg_lt _ rfl rfl rfl hr, finishReg_frame hi hr (.mov r imm) imm⟩,
      perform_of_reg_ge _ rfl rfl rfl⟩⟩

end Sys2Proof.Machine
end

section
/-! SUPPORT. The stack and call instructions (41_stack_call.md): each validates its operand, then
pushes or pops one entry, or raises. -/

namespace Sys2Proof.Machine

section
variable {α : Type} {s : State} {x : Except ErrKind α} {f : α → Except ErrKind State}

/-- An execution whose first check or stack operation passes goes on with its result. -/
theorem settle_bind_ok {a : α} (h : x = .ok a) : settle s (x >>= f) = settle s (f a) := by
  rw [h]; rfl

/-- R84: an execution whose first check or stack operation fails raises that error. -/
theorem settle_bind_error {k : ErrKind} (h : x = .error k) :
    settle s (x >>= f) = errsWith s k := by
  rw [h]; rfl

end

/-! What an instruction answers whose one checked operand is an address (R82). -/

section
variable {i : Instr} {a : Byte} {s : State} (e : Except ErrKind State)

theorem perform_of_addr_lt (hr : regOperands i = []) (hx : usesIndex i = false)
    (ha : addrOperands i = [a]) (h : a.toNat < s.cfg.memSize) : perform i s e = settle s e :=
  perform_of_valid e <| (validate_addr hr hx ha).trans (if_neg (Nat.not_le.2 h))

theorem perform_of_addr_ge (hr : regOperands i = []) (hx : usesIndex i = false)
    (ha : addrOperands i = [a]) (h : s.cfg.memSize ≤ a.toNat) :
    perform i s e = errsWith s .invalidAddress :=
  perform_of_invalid e <| (validate_addr hr hx ha).trans (if_pos h)

end

/-- An instruction with no checked operand always executes. -/
theorem perform_of_no_operands {i : Instr} {s : State} (e : Except ErrKind State)
    (hr : regOperands i = []) (hx : usesIndex i = false) (ha : addrOperands i = []) :
    perform i s e = settle s e :=
  perform_of_valid e (validate_none hr hx ha)

/-! What the four instructions commit. -/

section
variable {s : State}

/-- R140. -/
theorem exec_push_of_lt {r : Byte} (hr : r.toNat < s.cfg.regCount)
    (hroom : s.os.length < s.cfg.stackCap) :
    exec (.push r) s = .next { s with os := s.os ++ [s.reg r.toNat], pc := s.pc + 2 } :=
  (perform_of_reg_lt _ rfl rfl rfl hr).trans (settle_bind_ok (pushStack_of_lt _ hroom))

/-- R141. -/
theorem exec_pop_of_concat {r v : Byte} {rest : List Byte} (hr : r.toNat < s.cfg.regCount)
    (hos : s.os = rest ++ [v]) :
    exec (.pop r) s = .next (finishReg (.pop r) (s.setOs rest) r v) :=
  (perform_of_reg_lt _ rfl rfl rfl hr).trans
    (settle_bind_ok ((congrArg _ hos).trans (popStack_concat _ rest v)))

/-- R142. -/
theorem exec_call_of_lt {a : Byte} (ha : a.toNat < s.cfg.memSize)
    (hroom : s.cs.length < s.cfg.callStackCap) :
    exec (.call a) s = .next { s with cs := s.cs ++ [s.pc + 2], pc := a.toNat } :=
  (perform_of_addr_lt _ rfl rfl rfl ha).trans (settle_bind_ok (pushStack_of_lt _ hroom))

/-- R143. -/
theorem exec_ret_of_concat {a : Nat} {rest : List Nat} (hcs : s.cs = rest ++ [a]) :
    exec .ret s = .next { s with cs := rest, pc := a } :=
  (perform_of_no_operands (i := .ret) _ rfl rfl rfl).trans
    (settle_bind_ok ((congrArg _ hcs).trans (popStack_concat _ rest a)))

end

/-- Settles O15: the register is validated, then the push succeeds or overflows. -/
theorem pushPushesTheRegister : Obligations.PushPushesTheRegister := by
  refine ⟨operandBytesAreFetched .push, fun r s => ⟨exec_push_of_lt, fun hr hfull => ?_,
    perform_of_reg_ge _ rfl rfl rfl⟩⟩
  exact (perform_of_reg_lt _ rfl rfl rfl hr).trans (settle_bind_error (pushStack_of_full _ hfull))

/-- Settles O16: the register is validated, then the pop succeeds or underflows. -/
theorem popPopsIntoTheRegister : Obligations.PopPopsIntoTheRegister := by
  refine ⟨operandBytesAreFetched .pop, fun r s hi => ⟨fun hr rest v hos => ?_, fun hr hos => ?_,
    perform_of_reg_ge _ rfl rfl rfl⟩⟩
  · exact ⟨_, exec_pop_of_concat hr hos, finishReg_reg_same (hi.regs ▸ hr),
      fun _ => finishReg_reg_other, rfl⟩
  · exact (perform_of_reg_lt _ rfl rfl rfl hr).trans
      (settle_bind_error ((congrArg _ hos).trans (popStack_nil _)))

/-- Settles O17: the target is validated, then the push succeeds or overflows. -/
theorem callPushesTheReturnAddress : Obligations.CallPushesTheReturnAddress := by
  refine ⟨operandBytesAreFetched .call, fun a s => ⟨exec_call_of_lt, fun ha hfull => ?_,
    perform_of_addr_ge _ rfl rfl rfl⟩⟩
  exact (perform_of_addr_lt _ rfl rfl rfl ha).trans (settle_bind_error (pushStack_of_full _ hfull))

/-- Settles O18: nothing is validated; the pop succeeds or underflows. -/
theorem retPopsIntoPc : Obligations.RetPopsIntoPc := by
  refine ⟨operandBytesAreFetched .ret, fun s => ⟨fun rest a => exec_ret_of_concat, fun hcs => ?_⟩⟩
  exact (perform_of_no_operands (i := .ret) _ rfl rfl rfl).trans
    (settle_bind_error ((congrArg _ hcs).trans (popStack_nil _)))

/-- Settles O51: what a push leaves is the old stack with one entry on top, which is the form a pop
takes apart. -/
theorem stackRoundTrips : Obligations.StackRoundTrips := by
  refine ⟨fun r q s hi hr hq hroom => ?_, fun a s ha hroom => ?_⟩
  · exact ⟨_, _, exec_push_of_lt hr hroom, exec_pop_of_concat hq rfl,
      finishReg_reg_same (hi.regs ▸ hq), fun _ => finishReg_reg_other, rfl⟩
  · exact ⟨_, exec_call_of_lt ha hroom, rfl,
      fun u hu => ⟨_, exec_ret_of_concat hu, rfl, rfl⟩⟩

end Sys2Proof.Machine
end

section
/-! SUPPORT. The memory instructions (42_memory_ops.md): each checks a register and an address, the
indexed two also the implicit `r1` and the effective address, then reads or writes one cell. -/

namespace Sys2Proof.Machine

/-! What an instruction answers whose checked operands are a register and an address (R82). -/

section
variable {i : Instr} {r a : Byte} {s : State} (e : Except ErrKind State)

theorem perform_of_reg_addr_reg_ge (hr : regOperands i = [r]) (hx : usesIndex i = false)
    (ha : addrOperands i = [a]) (h : s.cfg.regCount ≤ r.toNat) :
    perform i s e = errsWith s .invalidRegister :=
  perform_of_invalid e <| (validate_reg_addr hr hx ha).trans (if_pos h)

theorem perform_of_reg_addr_addr_ge (hr : regOperands i = [r]) (hx : usesIndex i = false)
    (ha : addrOperands i = [a]) (hlt : r.toNat < s.cfg.regCount) (h : s.cfg.memSize ≤ a.toNat) :
    perform i s e = errsWith s .invalidAddress :=
  perform_of_invalid e <| (validate_reg_addr hr hx ha).trans <|
    (if_neg (Nat.not_le.2 hlt)).trans (if_pos h)

end

/-! What an indexed instruction answers (R82, R152, R153): its execution starts with the effective
address. -/

section
variable {i : Instr} {r b : Byte} {s : State}

/-- R23: a missing register, the implicit `r1` included. -/
theorem perform_of_indexed_reg_ge (e : Except ErrKind State) (hr : regOperands i = [r])
    (hx : usesIndex i = true) (ha : addrOperands i = [b])
    (h : s.cfg.regCount ≤ r.toNat ∨ s.cfg.regCount ≤ 1) :
    perform i s e = errsWith s .invalidRegister :=
  perform_of_invalid e <| (validate_indexed hr hx ha).trans (if_pos h)

variable (f : Nat → Except ErrKind State)

/-- An effective address inside memory has its base there too, so validation passes. -/
theorem perform_of_indexedAddress_lt (hr : regOperands i = [r]) (hx : usesIndex i = true)
    (ha : addrOperands i = [b]) (hlt : r.toNat < s.cfg.regCount) (h1 : 1 < s.cfg.regCount)
    (hea : indexedAddress s b < s.cfg.memSize) :
    perform i s (effectiveAddress s b >>= f) = settle s (f (indexedAddress s b)) := by
  have hb : ¬s.cfg.memSize ≤ b.toNat :=
    Nat.not_le.2 (Nat.lt_of_le_of_lt (Nat.le_add_right ..) hea)
  have hv : validate s.cfg i = .ok () := by
    rw [validate_indexed hr hx ha, if_neg (by omega), if_neg hb]
  rw [perform_of_valid _ hv, settle_bind_ok (effectiveAddress_of_lt hea)]

/-- A base outside memory fails validation, any other effective address outside memory the
execution; both raise the same error. -/
theorem perform_of_indexedAddress_ge (hr : regOperands i = [r]) (hx : usesIndex i = true)
    (ha : addrOperands i = [b]) (hlt : r.toNat < s.cfg.regCount) (h1 : 1 < s.cfg.regCount)
    (hea : s.cfg.memSize ≤ indexedAddress s b) :
    perform i s (effectiveAddress s b >>= f) = errsWith s .invalidAddress := by
  have hv := validate_indexed (c := s.cfg) hr hx ha
  rw [if_neg (by omega)] at hv
  by_cases hb : s.cfg.memSize ≤ b.toNat
  · exact perform_of_invalid _ (hv.trans (if_pos hb))
  · rw [perform_of_valid _ (hv.trans (if_neg hb)),
      settle_bind_error (effectiveAddress_of_ge hea)]

end

/-- R152, R153: the two address checks are one bound on the effective address. -/
theorem memSize_le_indexedAddress {s : State} {b : Byte}
    (h : s.cfg.memSize ≤ b.toNat ∨ s.cfg.memSize ≤ b.toNat + (s.reg 1).toNat) :
    s.cfg.memSize ≤ indexedAddress s b :=
  h.elim (fun hb => Nat.le_add_right_of_le hb) id

/-- R54, R81: a byte in a cell, the other cells, and the frame. -/
theorem finishStore_frame (i : Instr) (s : State) (ea : Nat) (v : Byte) :
    (finishStore i s ea v).byteAt ea = v ∧
      (∀ c, c ≠ ea → (finishStore i s ea v).byteAt c = s.byteAt c) ∧
      finishStore i s ea v = { s with mem := (finishStore i s ea v).mem, pc := npcOf i s } :=
  ⟨State.byteAt_setByte_same s ea v, fun _ => State.byteAt_setByte_other s v, rfl⟩

/-- Settles O19: the cell's byte in the operand's register. -/
theorem loadReadsMemory : Obligations.LoadReadsMemory :=
  ⟨operandBytesAreFetched .load, fun r a _ hi =>
    ⟨fun hr ha => ⟨_, exec_load_of_valid hr ha, finishReg_frame hi hr (.load r a) _⟩,
      perform_of_reg_addr_reg_ge _ rfl rfl rfl, perform_of_reg_addr_addr_ge _ rfl rfl rfl⟩⟩

/-- Settles O20: the register's byte in the cell at the operand, whichever cell it is. -/
theorem storeWritesMemory : Obligations.StoreWritesMemory :=
  ⟨operandBytesAreFetched .store, fun r a s =>
    ⟨fun hr ha => ⟨_, exec_store_of_valid hr ha, finishStore_frame (.store r a) s _ _⟩,
      perform_of_reg_addr_reg_ge _ rfl rfl rfl, perform_of_reg_addr_addr_ge _ rfl rfl rfl⟩⟩

/-- Settles O21: the effective address is computed before the register is written, so `r = 1` is no
special case. -/
theorem ldIdxReadsIndexed : Obligations.LdIdxReadsIndexed := by
  refine ⟨operandBytesAreFetched .ldIdx, fun r b s hi => ⟨fun hr h1 hea => ?_, fun h => ?_,
    fun hr h1 h => ?_⟩⟩
  · exact ⟨_, perform_of_indexedAddress_lt _ rfl rfl rfl hr h1 hea,
      finishReg_frame hi hr (.ldIdx r b) _⟩
  · exact perform_of_indexed_reg_ge _ rfl rfl rfl (h.imp_right Nat.le_of_lt_succ)
  · exact perform_of_indexedAddress_ge _ rfl rfl rfl hr h1 (memSize_le_indexedAddress h)

/-- Settles O22: no register is written, so with `r = 1` the index itself is stored. -/
theorem stIdxWritesIndexed : Obligations.StIdxWritesIndexed := by
  refine ⟨operandBytesAreFetched .stIdx, fun r b s => ⟨fun hr h1 hea => ?_, fun h => ?_,
    fun hr h1 h => ?_⟩⟩
  · exact ⟨_, exec_stIdx_of_valid hr h1 hea, finishStore_frame (.stIdx r b) s _ _⟩
  · exact perform_of_indexed_reg_ge _ rfl rfl rfl (h.imp_right Nat.le_of_lt_succ)
  · exact perform_of_indexedAddress_ge _ rfl rfl rfl hr h1 (memSize_le_indexedAddress h)

end Sys2Proof.Machine
end

section
/-! SUPPORT. The arithmetic instructions (43_arithmetic.md): each checks its two register operands,
then writes what the ALU makes of them to the first. -/

namespace Sys2Proof.Machine

/-! What an instruction answers whose checked operands are two registers (R82). -/

section
variable {i : Instr} {d r : Byte} {s : State} (e : Except ErrKind State)

theorem perform_of_regs_lt (hr : regOperands i = [d, r]) (hx : usesIndex i = false)
    (ha : addrOperands i = []) (hd : d.toNat < s.cfg.regCount) (hs : r.toNat < s.cfg.regCount) :
    perform i s e = settle s e :=
  perform_of_valid e <| (validate_regs hr hx ha).trans <|
    if_neg (not_or.2 ⟨Nat.not_le.2 hd, Nat.not_le.2 hs⟩)

theorem perform_of_regs_ge (hr : regOperands i = [d, r]) (hx : usesIndex i = false)
    (ha : addrOperands i = []) (h : s.cfg.regCount ≤ d.toNat ∨ s.cfg.regCount ≤ r.toNat) :
    perform i s e = errsWith s .invalidRegister :=
  perform_of_invalid e <| (validate_regs hr hx ha).trans (if_pos h)

end

/-- R81, R160: with both registers there, a result `v` of numeric value `n` is committed to the
first and nothing else but `pc` moves. -/
theorem perform_finishReg_of_regs_lt {i : Instr} {d r v : Byte} {s : State} {n : Nat}
    (hi : s.Inv) (hr : regOperands i = [d, r]) (hx : usesIndex i = false)
    (ha : addrOperands i = []) (hd : d.toNat < s.cfg.regCount) (hs : r.toNat < s.cfg.regCount)
    (hv : v.toNat = n) :
    ∃ t, perform i s (.ok (finishReg i s d v)) = .next t ∧ (t.reg d.toNat).toNat = n ∧
      (∀ j, j ≠ d.toNat → t.reg j = s.reg j) ∧ t = { s with x := t.x, pc := npcOf i s } := by
  obtain ⟨hval, hother, hframe⟩ := finishReg_frame hi hd i v
  exact ⟨_, perform_of_regs_lt _ hr hx ha hd hs, (congrArg BitVec.toNat hval).trans hv, hother,
    hframe⟩

/-- R163 in the form the spec writes it. -/
theorem toNat_aluSub_eq_add_sub (a b : Byte) :
    (aluSub a b).toNat = (a.toNat + 256 - b.toNat) % 256 := by
  rw [toNat_aluSub, ← Nat.add_sub_assoc b.isLt.le]

/-- R164, for any two bytes. -/
theorem toNat_aluMul (a b : Byte) : (aluMul a b).toNat = a.toNat * b.toNat % 256 :=
  BitVec.toNat_mul a b

/-- R161: a nonzero divisor divides. -/
theorem aluDiv_of_ne_zero {a b : Byte} (h : b ≠ 0) : aluDiv a b = .ok (a / b) := if_neg h

/-- R161: a zero divisor is an error. -/
theorem aluDiv_of_eq_zero {a b : Byte} (h : b = 0) : aluDiv a b = .error .divisionByZero := if_pos h

/-- Settles O23: the ALU's sum, in the first operand's register. -/
theorem addWraps : Obligations.AddWraps :=
  ⟨operandBytesAreFetched .add, fun _ _ _ hi =>
    ⟨fun hd hr => perform_finishReg_of_regs_lt hi rfl rfl rfl hd hr (toNat_aluAdd _ _),
      perform_of_regs_ge _ rfl rfl rfl⟩⟩

/-- Settles O24: the ALU's difference, in the first operand's register. -/
theorem subWraps : Obligations.SubWraps :=
  ⟨operandBytesAreFetched .sub, fun _ _ _ hi =>
    ⟨fun hd hr => perform_finishReg_of_regs_lt hi rfl rfl rfl hd hr (toNat_aluSub_eq_add_sub _ _),
      perform_of_regs_ge _ rfl rfl rfl⟩⟩

/-- Settles O25: the ALU's product, in the first operand's register. -/
theorem mulKeepsTheLowByte : Obligations.MulKeepsTheLowByte :=
  ⟨operandBytesAreFetched .mul, fun _ _ _ hi =>
    ⟨fun hd hr => perform_finishReg_of_regs_lt hi rfl rfl rfl hd hr (toNat_aluMul _ _),
      perform_of_regs_ge _ rfl rfl rfl⟩⟩

/-- Settles O26: the registers are validated, then the divisor decides between the quotient and the
error. -/
theorem divRoundsDown : Obligations.DivRoundsDown := by
  refine ⟨operandBytesAreFetched .div, fun d r s hi => ⟨fun hd hr hne => ?_, fun hd hr hz => ?_,
    perform_of_regs_ge _ rfl rfl rfl⟩⟩
  · rw [exec_div, execDiv, aluDiv_of_ne_zero hne]
    exact perform_finishReg_of_regs_lt hi rfl rfl rfl hd hr BitVec.toNat_udiv
  · exact (perform_of_regs_lt _ rfl rfl rfl hd hr).trans
      (settle_bind_error (aluDiv_of_eq_zero hz))

end Sys2Proof.Machine
end

section
/-! SUPPORT. The jump and compare instructions (44_branch_compare.md): Jmp checks its target, Cmp
checks its two registers and commits the comparator's two flags. -/

namespace Sys2Proof.Machine

/-- R173: `Z` is equality of the two values. -/
theorem zeroFlag_eq_true_iff (a b : Byte) : zeroFlag a b = true ↔ a.toNat = b.toNat :=
  beq_iff_eq.trans BitVec.toNat_inj.symm

/-- R173: `G` compares the two values as unsigned numbers. -/
theorem greaterFlag_eq_true_iff (a b : Byte) : greaterFlag a b = true ↔ a.toNat > b.toNat :=
  decide_eq_true_iff

/-- Settles O27: the target is the one checked operand, an address. -/
theorem jmpJumps : Obligations.JmpJumps :=
  ⟨operandBytesAreFetched .jmp, fun _ _ =>
    ⟨perform_of_addr_lt _ rfl rfl rfl, perform_of_addr_ge _ rfl rfl rfl⟩⟩

/-- Settles O30: the registers are validated, then both flags are the comparator's. -/
theorem cmpSetsBothFlags : Obligations.CmpSetsBothFlags := by
  refine ⟨operandBytesAreFetched .cmp, fun p q s => ⟨fun hp hq => ?_,
    perform_of_regs_ge _ rfl rfl rfl⟩⟩
  exact ⟨_, perform_of_regs_lt _ rfl rfl rfl hp hq, zeroFlag_eq_true_iff _ _,
    greaterFlag_eq_true_iff _ _, rfl⟩

end Sys2Proof.Machine
end

section
/-! SUPPORT. The system rules (45_system.md): a byte outside the table is an error, never a no-op. -/

namespace Sys2Proof.Machine

/-- Settles O9: the fetch check comes first (R76), and inside memory an undefined byte is an
error. -/
theorem undefinedOpcodeErrs : Obligations.UndefinedOpcodeErrs := by
  intro s hrun hb
  split
  case isTrue hpc => exact fetchOutsideMemoryErrs s hrun hpc
  case isFalse hpc => exact step_of_undefinedOpcode hrun hb (Nat.lt_of_not_le hpc)

end Sys2Proof.Machine
end

section
/-! SUPPORT. Ending a run (R192, R194): a step that leaves Running raised an error, which changes
only `run`, or ran Halt. -/

namespace Sys2Proof.Machine

/-- An instruction leaves Errored only by raising. -/
theorem Effect.eq_raise {s t : State} {i : Instr} {k : ErrKind} (h : Effect s i t)
    (hs : s.run ≠ .errored k) (ht : t.run = .errored k) : t = s.raise k := by
  cases h with
  | raise i k' =>
    cases ht
    rfl
  | halt => cases ht
  | _ => exact absurd ht hs

/-- An instruction leaves Halted only if it is Halt. -/
theorem Effect.eq_halted {s t : State} {i : Instr} (h : Effect s i t) (hs : s.run ≠ .halted)
    (ht : t.run = .halted) : i = .halt ∧ t = { s with run := .halted, pc := s.pc + 1 } := by
  cases h with
  | raise i k => cases ht
  | halt => exact ⟨rfl, rfl⟩
  | _ => exact absurd ht hs

/-- Settles O36: the step started Running, so a terminal `run` is the work of the fetch or of the
instruction. -/
theorem errorsChangeNothingElse : Obligations.ErrorsChangeNothingElse := by
  intro s t h
  have hr := running_of_step_next h
  rcases step_effect h with ⟨k', rfl⟩ | ⟨i, hb, -, he⟩
  · refine ⟨fun k hk => ?_, nofun⟩
    cases hk
    rfl
  · refine ⟨fun k => he.eq_raise (by simp [hr]), fun hhalt => ?_⟩
    obtain ⟨rfl, ht⟩ := he.eq_halted (by simp [hr]) hhalt
    exact ⟨hb.symm, ht⟩

end Sys2Proof.Machine
end

section
/-! SUPPORT. The causes of errors (R82, R190): an error comes from the fetch, from validation, or
from the one check or stack operation an instruction's execution starts with. -/

namespace Sys2Proof.Machine

/-- R23: the instructions with an implicit `r1`. -/
theorem usesIndex_iff (i : Instr) :
    usesIndex i = true ↔ i.opcode = .ldIdx ∨ i.opcode = .stIdx := by
  unfold usesIndex
  split <;> simp_all

/-- All that validation can raise, with what it found. -/
theorem validate_error_cases {c : Config} {i : Instr} {k : ErrKind}
    (h : validate c i = .error k) :
    (k = .invalidRegister ∧ ((∃ r ∈ regOperands i, c.regCount ≤ r.toNat) ∨
        (usesIndex i = true ∧ c.regCount ≤ 1))) ∨
      (k = .invalidAddress ∧ ∃ a ∈ addrOperands i, c.memSize ≤ a.toNat) := by
  unfold validate at h
  split_ifs at h with hr hx ha
  · cases h
    exact .inl ⟨rfl, .inl (by simpa using hr)⟩
  · cases h
    exact .inl ⟨rfl, .inr (by simpa using hx)⟩
  · cases h
    exact .inr ⟨rfl, by simpa using ha⟩

/-! What the checks and stack operations of execution raise. -/

theorem pushStack_error {α : Type} {overflow k : ErrKind} {cap : Nat} {l : List α} {v : α}
    (h : pushStack overflow cap l v = .error k) : k = overflow ∧ cap ≤ l.length := by
  rcases pushStack_cases overflow cap l v with ⟨-, hp⟩ | ⟨hfull, hp⟩
  · cases hp.symm.trans h
  · cases hp.symm.trans h
    exact ⟨rfl, hfull⟩

theorem popStack_error {α : Type} {underflow k : ErrKind} {l : List α}
    (h : popStack underflow l = .error k) : k = underflow ∧ l = [] := by
  rcases popStack_cases underflow l with ⟨hnil, hp⟩ | ⟨rest, v, -, hp⟩
  · cases hp.symm.trans h
    exact ⟨rfl, hnil⟩
  · cases hp.symm.trans h

theorem effectiveAddress_error {s : State} {b : Byte} {k : ErrKind}
    (h : effectiveAddress s b = .error k) :
    k = .invalidAddress ∧ s.cfg.memSize ≤ indexedAddress s b := by
  rcases effectiveAddress_cases s b with ⟨-, hp⟩ | ⟨hge, hp⟩
  · cases hp.symm.trans h
  · cases hp.symm.trans h
    exact ⟨rfl, hge⟩

theorem aluDiv_error {a b : Byte} {k : ErrKind} (h : aluDiv a b = .error k) :
    k = .divisionByZero ∧ b = 0 := by
  by_cases hb : b = 0
  · cases (aluDiv_of_eq_zero hb).symm.trans h
    exact ⟨rfl, hb⟩
  · cases (aluDiv_of_ne_zero hb).symm.trans h

/-- What the execution of an instruction raises on valid operands, and when; `Commits` is its
counterpart. -/
def Raises (s : State) (k : ErrKind) : Instr → Prop
  | .push _ => k = .stackOverflow ∧ s.cfg.stackCap ≤ s.os.length
  | .pop _ => k = .stackUnderflow ∧ s.os = []
  | .call _ => k = .callStackOverflow ∧ s.cfg.callStackCap ≤ s.cs.length
  | .ret => k = .callStackUnderflow ∧ s.cs = []
  | .ldIdx _ b | .stIdx _ b => k = .invalidAddress ∧ s.cfg.memSize ≤ indexedAddress s b
  | .div _ r => k = .divisionByZero ∧ s.reg r.toNat = 0
  | _ => False

section
variable {i : Instr} {s t : State} {k : ErrKind}

/-- An execution that checks nothing: only validation raises. -/
theorem validate_of_perform_ok_errored {u : State} (h : perform i s (.ok u) = .next t)
    (ht : t.run = .errored k) (hu : u.run ≠ .errored k) : validate s.cfg i = .error k := by
  rcases perform_cases h with ⟨k', rfl, hv | ⟨-, he⟩⟩ | ⟨-, he⟩
  · cases ht
    exact hv
  · cases he
  · cases he
    exact absurd ht hu

/-- An execution that starts with a check or a stack operation `x`: validation or `x` raises. -/
theorem perform_bind_errored {α : Type} {x : Except ErrKind α} {f : α → Except ErrKind State}
    (h : perform i s (x >>= f) = .next t) (ht : t.run = .errored k)
    (hf : ∀ a, ∃ u, f a = .ok u ∧ u.run ≠ .errored k) :
    validate s.cfg i = .error k ∨ x = .error k := by
  cases x with
  | ok a =>
    obtain ⟨u, hu, hrun⟩ := hf a
    exact .inl (validate_of_perform_ok_errored (hu ▸ h) ht hrun)
  | error k' =>
    rcases perform_cases (e := .error k') h with ⟨k'', rfl, hv | ⟨-, he⟩⟩ | ⟨-, he⟩
    · cases ht
      exact .inl hv
    · cases ht
      cases he
      exact .inr rfl
    · cases he

/-- All that an instruction can raise: an error of its validation or of its execution. -/
theorem exec_errored (hs : s.run ≠ .errored k) (h : exec i s = .next t)
    (ht : t.run = .errored k) : validate s.cfg i = .error k ∨ Raises s k i := by
  cases i with
  | push r | call a =>
    exact (perform_bind_errored h ht fun _ => ⟨_, rfl, hs⟩).imp_right pushStack_error
  | pop r => exact (perform_bind_errored h ht fun _ => ⟨_, rfl, hs⟩).imp_right popStack_error
  | ret =>
    rw [exec_ret] at h
    exact (perform_bind_errored h ht fun _ => ⟨_, rfl, hs⟩).imp_right popStack_error
  | ldIdx r b | stIdx r b =>
    exact (perform_bind_errored h ht fun _ => ⟨_, rfl, hs⟩).imp_right effectiveAddress_error
  | div d r => exact (perform_bind_errored h ht fun _ => ⟨_, rfl, hs⟩).imp_right aluDiv_error
  | halt =>
    rw [exec_halt] at h
    exact .inl (validate_of_perform_ok_errored h ht nofun)
  | _ => exact .inl (validate_of_perform_ok_errored h ht hs)

end

/-! The causes at the opcode byte at `pc`. -/

section
variable {s : State} {m : Opcode} {k : ErrKind}

theorem errorCause_of_validate (hb : s.byteAt s.pc = m.byte)
    (h : validate s.cfg (m.build fun n => s.byteAt (s.pc + n)) = .error k) : ErrorCause s k := by
  rcases validate_error_cases h with ⟨rfl, hr | ⟨hx, h1⟩⟩ | ⟨rfl, ha⟩
  · exact ⟨m, hb, .inl hr⟩
  · rw [usesIndex_iff, opcode_build] at hx
    exact ⟨m, hb, .inr ⟨hx, h1⟩⟩
  · exact .inr ⟨m, hb, .inr (.inl ha)⟩

theorem errorCause_of_raises (hb : s.byteAt s.pc = m.byte)
    (h : Raises s k (m.build fun n => s.byteAt (s.pc + n))) : ErrorCause s k := by
  cases m with
  | push | pop | call | ret | div =>
    obtain ⟨rfl, hc⟩ := h
    exact ⟨hb, hc⟩
  | ldIdx =>
    obtain ⟨rfl, hc⟩ := h
    exact .inr ⟨.ldIdx, hb, .inr (.inr ⟨.inl rfl, hc⟩)⟩
  | stIdx =>
    obtain ⟨rfl, hc⟩ := h
    exact .inr ⟨.stIdx, hb, .inr (.inr ⟨.inr rfl, hc⟩)⟩
  | _ => exact h.elim

end

/-- Settles O37, by the three answers of the fetch: an error of its own, an undefined byte, or an
instruction, whose errors are those of its validation and of its execution. -/
theorem errorsHaveTheirCause : Obligations.ErrorsHaveTheirCause := by
  intro s t k h ht
  have hr := running_of_step_next h
  rcases fetch_cases s with ⟨hc, hf⟩ | ⟨-, hd, hf⟩ | ⟨m, hm, -, hf⟩
  · rw [step_of_fetch_error hr hf] at h
    cases h
    cases ht
    exact hc.imp_right fun ⟨m, hm, hlt⟩ => ⟨m, (byte_of_decodeByte hm).symm, .inl hlt⟩
  · rw [step_of_fetch_unknown hr hf] at h
    cases h
    cases ht
    exact ⟨rfl, undefinedOpcode_of_decodeByte hd⟩
  · rw [step_of_fetch_instr hr hf] at h
    have hb := (byte_of_decodeByte hm).symm
    exact (exec_errored (by simp [hr]) h ht).elim (errorCause_of_validate hb)
      (errorCause_of_raises hb)

end Sys2Proof.Machine
end

section
/-! SUPPORT. The conditional jumps (R171, R172): the target is validated whatever the flag, then the
flag chooses between the target and the natural advance. -/

namespace Sys2Proof.Machine

/-- R171, R172: a jump on the flag `c`, whose one checked operand is its target. -/
theorem perform_conditionalJump {i : Instr} {a : Byte} {s : State} (c : Bool)
    (hr : regOperands i = []) (hx : usesIndex i = false) (ha : addrOperands i = [a]) :
    let jump := perform i s (.ok (s.setPc (if c then a.toNat else npcOf i s)))
    (a.toNat < s.cfg.memSize → c = true → jump = .next { s with pc := a.toNat }) ∧
      (a.toNat < s.cfg.memSize → c = false → jump = .next { s with pc := npcOf i s }) ∧
      (s.cfg.memSize ≤ a.toNat → jump = errsWith s .invalidAddress) := by
  refine ⟨?_, ?_, perform_of_addr_ge _ hr hx ha⟩
  all_goals
    rintro hlt rfl
    exact perform_of_addr_lt _ hr hx ha hlt

/-- Settles O28: the jump on `Z`. -/
theorem jeqJumpsOnZero : Obligations.JeqJumpsOnZero :=
  ⟨operandBytesAreFetched .jeq, fun _ s => perform_conditionalJump s.z rfl rfl rfl⟩

/-- Settles O29: the jump on `G`. -/
theorem jgtJumpsOnGreater : Obligations.JgtJumpsOnGreater :=
  ⟨operandBytesAreFetched .jgt, fun _ s => perform_conditionalJump s.g rfl rfl rfl⟩

end Sys2Proof.Machine
end

section
/-! SUPPORT. The order of validation (R82, R83): a missing register first, then a missing address,
before anything the execution checks. -/

namespace Sys2Proof.Machine

/-- A register operand that does not exist, or a missing implicit `r1`. -/
theorem validate_of_missing_register {c : Config} {i : Instr}
    (h : (∃ r ∈ regOperands i, c.regCount ≤ r.toNat) ∨
      (usesIndex i = true ∧ c.regCount ≤ 1)) :
    validate c i = .error .invalidRegister := by
  unfold validate
  split_ifs with hr hx
  · rfl
  · rfl
  all_goals
    refine absurd h (not_or.2 ⟨?_, ?_⟩)
    · simpa using hr
    · simpa using hx

/-- An address operand that does not exist, every register there. -/
theorem validate_of_missing_address {c : Config} {i : Instr}
    (hr : ∀ r ∈ regOperands i, r.toNat < c.regCount)
    (hx : usesIndex i = true → 1 < c.regCount)
    (ha : ∃ a ∈ addrOperands i, c.memSize ≤ a.toNat) :
    validate c i = .error .invalidAddress := by
  unfold validate
  rw [if_neg (by simpa using hr), if_neg (by simpa using hx), if_pos (by simpa using ha)]

/-- R82, R85: every instruction has the one shape, with an execution of its own. -/
theorem exec_eq_perform (i : Instr) (s : State) : ∃ e, exec i s = perform i s e := by
  cases i with
  | halt => exact ⟨_, exec_halt s⟩
  | _ => exact ⟨_, rfl⟩

/-- R83: what validation raises, the instruction raises, whatever its execution would do. -/
theorem exec_of_validate_error {i : Instr} {s : State} {k : ErrKind}
    (h : validate s.cfg i = .error k) : exec i s = errsWith s k := by
  obtain ⟨e, he⟩ := exec_eq_perform i s
  exact he.trans (perform_of_invalid e h)

/-- Settles O38: the two kinds of missing operand, in the order validation looks for them. -/
theorem operandsAreValidatedFirst : Obligations.OperandsAreValidatedFirst := by
  intro i s
  rw [← usesIndex_iff]
  exact ⟨fun h => exec_of_validate_error (validate_of_missing_register h),
    fun hr hx ha => exec_of_validate_error (validate_of_missing_address hr hx ha)⟩

end Sys2Proof.Machine
end

section
/-! SUPPORT. When there is a step (R86): always from Running, never from a terminal state. -/

namespace Sys2Proof.Machine

/-- An instruction always answers a next state. -/
theorem exec_next (i : Instr) (s : State) : ∃ t, exec i s = .next t := by
  obtain ⟨e, he⟩ := exec_eq_perform i s
  rw [he]
  exact perform_next i s e

/-- R89: a Running CORE has a step. -/
theorem step_next_of_running {s : State} (hr : s.run = .running) : ∃ t, step s = .next t := by
  rcases fetch_cases s with ⟨-, hf⟩ | ⟨-, -, hf⟩ | ⟨m, -, -, hf⟩
  · exact ⟨_, step_of_fetch_error hr hf⟩
  · exact ⟨_, step_of_fetch_unknown hr hf⟩
  · rw [step_of_fetch_instr hr hf]
    exact exec_next _ s

/-- R86: a terminal CORE has none. -/
theorem step_of_run_ne_running {s : State} (h : s.run ≠ .running) :
    step s = .fault (.terminal s.run) := by
  unfold step
  cases hr : s.run with
  | running => exact absurd hr h
  | halted | errored k => rfl

/-- Settles O10: the host's requests on a terminal CORE find no step to take. -/
theorem onlyRunningSteps : Obligations.OnlyRunningSteps := by
  refine ⟨fun s => step_next_of_running, fun s h => ?_⟩
  have hs := step_of_run_ne_running h
  exact ⟨hs, by simp [State.hostStep, hs], State.runFor_of_terminal (s.isTerminal_iff.2 h)⟩

/-- Settles O31: Halt has no operand to validate, and Halted is terminal. -/
theorem haltStopsTheMachine : Obligations.HaltStopsTheMachine :=
  ⟨operandBytesAreFetched .halt, fun s =>
    ⟨_, (exec_halt s).trans (perform_of_no_operands _ rfl rfl rfl), rfl,
      step_of_run_ne_running nofun⟩⟩

end Sys2Proof.Machine
end

section
/-! SUPPORT. Runs (R87, R208): a run is its first step and the run from there, limits add up, and
what a run returns it goes on returning. -/

namespace Sys2Proof.Machine

/-- R32: Running is not terminal. -/
theorem State.isTerminal_of_running {s : State} (hr : s.run = .running) : s.isTerminal = false := by
  simp [State.isTerminal, hr]

/-- A run's first step. -/
theorem State.runFor_succ_of_next {s t : State} (h : step s = .next t) (n : Nat) :
    s.runFor (n + 1) = t.runFor n := by
  have hr := State.isTerminal_of_running (running_of_step_next h)
  simp [State.runFor, hr, State.hostStep_of_next h]

/-- R208: a limit taken up again goes on where it stopped. -/
theorem State.runFor_add (n m : Nat) (s : State) : s.runFor (n + m) = (s.runFor n).runFor m := by
  induction n generalizing s with
  | zero => rw [Nat.zero_add]; rfl
  | succ n ih =>
    by_cases hs : s.run = .running
    · obtain ⟨t, ht⟩ := step_next_of_running hs
      rw [Nat.add_right_comm, State.runFor_succ_of_next ht, State.runFor_succ_of_next ht, ih]
    · have ht := s.isTerminal_iff.2 hs
      simp only [State.runFor_of_terminal ht]

/-- What a run returns, any higher limit returns too. -/
theorem State.runFor_of_le {s : State} {n m : Nat} (h : (s.runFor n).isTerminal = true)
    (hle : n ≤ m) : s.runFor m = s.runFor n := by
  obtain ⟨k, rfl⟩ := Nat.exists_eq_add_of_le hle
  rw [State.runFor_add, State.runFor_of_terminal h]

/-- A run returns one state only. -/
theorem State.RunsTo.unique {s u v : State} (hu : s.RunsTo u) (hv : s.RunsTo v) : v = u := by
  obtain ⟨hut, n, rfl⟩ := hu
  obtain ⟨hvt, m, rfl⟩ := hv
  rcases Nat.le_total n m with hle | hle
  · exact State.runFor_of_le hut hle
  · exact (State.runFor_of_le hvt hle).symm

/-- A run returns what the run from its first step returns. -/
theorem State.runsTo_iff_of_next {s t u : State} (h : step s = .next t) :
    s.RunsTo u ↔ t.RunsTo u := by
  refine and_congr_right fun hu => ⟨?_, ?_⟩
  · rintro ⟨n, rfl⟩
    cases n with
    | zero => exact absurd (running_of_step_next h) (s.isTerminal_iff.1 hu)
    | succ n => exact ⟨n, (State.runFor_succ_of_next h n).symm⟩
  · rintro ⟨n, rfl⟩
    exact ⟨n + 1, State.runFor_succ_of_next h n⟩

/-- A terminal CORE's run returns it as it is. -/
theorem State.runsTo_iff_of_terminal {s u : State} (h : s.isTerminal = true) :
    s.RunsTo u ↔ u = s := by
  simp only [State.RunsTo, State.runFor_of_terminal h]
  constructor
  · rintro ⟨-, -, rfl⟩
    rfl
  · rintro rfl
    exact ⟨h, 0, rfl⟩

/-- R32: the two kinds of terminal state. -/
theorem State.run_cases_of_terminal {s : State} (h : s.isTerminal = true) :
    s.run = .halted ∨ ∃ k, s.run = .errored k := by
  have hr := s.isTerminal_iff.1 h
  cases hs : s.run with
  | running => exact absurd hs hr
  | halted => exact .inl rfl
  | errored k => exact .inr ⟨k, rfl⟩

/-- A step that changes nothing is every step of the run. -/
theorem State.runFor_of_step_self {s : State} (h : step s = .next s) (n : Nat) :
    s.runFor n = s := by
  induction n with
  | zero => rfl
  | succ n ih => rw [State.runFor_succ_of_next h, ih]

/-- R170: a Jmp to its own address changes nothing. -/
theorem step_of_selfJump {s : State} (hr : s.run = .running) (hb : s.byteAt s.pc = 0x40)
    (hn : s.pc + 2 ≤ s.cfg.memSize) (ha : (s.byteAt (s.pc + 1)).toNat = s.pc) :
    step s = .next s := by
  have hs := step_of_opcode (m := .jmp) hr hb hn
  have hlt : (s.byteAt (s.pc + 1)).toNat < s.cfg.memSize := by omega
  rw [hs.trans (perform_of_addr_lt _ rfl rfl rfl hlt), settle_ok, ha]
  rfl

/-- Settles O52, clause by clause. -/
theorem runRepeatsTheStep : Obligations.RunRepeatsTheStep := by
  refine ⟨fun s t h => ?_, fun s h => ?_, fun s => rfl, State.runFor_add, fun s u hu => ?_,
    fun s hr hb hn ha => ?_⟩
  · exact ⟨State.runFor_succ_of_next h, fun u => State.runsTo_iff_of_next h⟩
  · have ht := s.isTerminal_iff.2 h
    exact ⟨State.runFor_of_terminal ht, fun u => State.runsTo_iff_of_terminal ht⟩
  · exact ⟨State.run_cases_of_terminal hu.1, fun v => hu.unique⟩
  · have hself := State.runFor_of_step_self (step_of_selfJump hr hb hn ha)
    refine ⟨hself, ?_⟩
    rintro u ⟨hu, n, rfl⟩
    rw [hself n] at hu
    exact s.isTerminal_iff.1 hu hr

end Sys2Proof.Machine
end

section
/-! SUPPORT. Construction (R40, R41, R221): when there is a CORE, and what each piece of its state
is; and the status triple (R33). -/

namespace Sys2Proof.Machine

/-- R221: the conditions. -/
theorem constructible_iff (c : Config) (image : List Byte) :
    constructible c image = true ↔
      1 ≤ c.regCount ∧ 1 ≤ c.memSize ∧ c.entry < c.memSize ∧ image.length ≤ c.memSize := by
  simp [constructible, and_assoc]

/-- R40, R41: the state of an accepted construction. -/
def constructed (c : Config) (image : List Byte) : State :=
  { State.reset with
    cfg := c
    pc := c.entry
    x := List.replicate c.regCount 0x00
    mem := Memory.writeBytes [] c.memSize 0 image }

theorem State.construct_of_constructible {c : Config} {image : List Byte}
    (h : constructible c image = true) : State.construct c image = some (constructed c image) :=
  if_pos h

theorem State.construct_of_not_constructible {c : Config} {image : List Byte}
    (h : ¬constructible c image = true) : State.construct c image = none :=
  if_neg h

/-- A CORE that was constructed was accepted. -/
theorem State.construct_eq_some {c : Config} {image : List Byte} {s : State}
    (h : State.construct c image = some s) :
    constructible c image = true ∧ s = constructed c image := by
  by_cases hc : constructible c image = true
  · cases (State.construct_of_constructible hc).symm.trans h
    exact ⟨hc, rfl⟩
  · cases (State.construct_of_not_constructible hc).symm.trans h

/-- R41 (D4): the image stands at address 0. -/
theorem constructed_byteAt_image {c : Config} {image : List Byte}
    (hfit : image.length ≤ c.memSize) (a : Nat) (h : a < image.length) :
    (constructed c image).byteAt a = image[a] := by
  simpa [State.byteAt, constructed] using
    Memory.read_writeBytes [] c.memSize image (a := 0) h (by omega)

/-- R41 (D3): past the image every cell holds the fill. -/
theorem constructed_byteAt_above (c : Config) {image : List Byte} {a : Nat}
    (h : image.length ≤ a) : (constructed c image).byteAt a = 0 :=
  Memory.read_writeBytes_above [] c.memSize image (by omega)

/-- R40: every register, there or not, reads 0. -/
theorem constructed_reg (c : Config) (image : List Byte) (i : Nat) :
    (constructed c image).reg i = 0 := by
  simp only [State.reg, constructed, List.getD_eq_getElem?_getD, List.getElem?_replicate]
  split <;> rfl

/-- Settles O43: the constructed state, under R221's conditions. -/
theorem constructionChecksAndLoadsTheImage : Obligations.ConstructionChecksAndLoadsTheImage := by
  intro c image
  rw [← constructible_iff]
  refine ⟨fun h => ?_, State.construct_of_not_constructible⟩
  obtain ⟨-, -, -, hfit⟩ := (constructible_iff c image).1 h
  exact ⟨_, State.construct_of_constructible h, constructed_byteAt_image hfit,
    fun a => constructed_byteAt_above c⟩

/-- Settles O44, field by field of the constructed state. -/
theorem constructionValues : Obligations.ConstructionValues := by
  intro c image s h
  obtain ⟨hc, rfl⟩ := State.construct_eq_some h
  obtain ⟨-, -, -, hfit⟩ := (constructible_iff c image).1 hc
  exact ⟨rfl, rfl, rfl, List.length_replicate, constructed_reg c image, rfl, rfl, rfl, rfl,
    constructed_byteAt_image hfit, fun a => constructed_byteAt_above c, rfl, rfl⟩

/-- Settles O41: the reset state is the construction with `K0` and the empty image. -/
theorem resetIsLegal : Obligations.ResetIsLegal :=
  constructionIsLegal Config.k0 [] State.reset (State.construct_of_constructible rfl)

/-- R33: the status triple is a function of the run state alone. -/
theorem State.status_of_run {s : State} {r : RunState} (h : s.run = r) :
    s.status = (s.setRun r).status := by
  subst h; rfl

/-- Settles O53, run state by run state. -/
theorem statusCodes : Obligations.StatusCodes := by
  intro s
  exact ⟨State.status_of_run, State.status_of_run, State.status_of_run, State.status_of_run,
    State.status_of_run, State.status_of_run, State.status_of_run, State.status_of_run,
    State.status_of_run, fun _ => State.status_of_run⟩

end Sys2Proof.Machine
end

section
/-! SUPPORT. The output trace (R204): only a completed Out appends to it, and a step from the same
state with another trace does the same. -/

namespace Sys2Proof.Machine

/-- The state with the first `n` bytes of its trace replaced by `o`: what a run that started with
trace `o`, not with those `n` bytes, would have reached. -/
def State.rebaseOut (o : List Byte) (n : Nat) (s : State) : State :=
  { s with out := o ++ s.out.drop n }

/-- Replacing the whole trace. -/
theorem State.rebaseOut_length (o : List Byte) (s : State) :
    s.rebaseOut o s.out.length = { s with out := o } := by
  simp [State.rebaseOut]

/-- Emission appends past the replaced bytes. -/
theorem State.rebaseOut_emit {o : List Byte} {n : Nat} {s : State} (h : n ≤ s.out.length)
    (v : Byte) : (s.emit v).rebaseOut o n = (s.rebaseOut o n).emit v := by
  simp [State.rebaseOut, State.emit, List.drop_append_of_le_length h]

/-- An execution that starts with a check or a stack operation `x`, which does not see the trace. -/
theorem perform_bind_rebaseOut {α : Type} {i : Instr} {s : State} {o : List Byte} {n : Nat}
    {x : Except ErrKind α} {e e' : α → Except ErrKind State}
    (he : ∀ a, e' a = (e a).map (State.rebaseOut o n)) :
    perform i (s.rebaseOut o n) (x >>= e') =
      mapNext (State.rebaseOut o n) (perform i s (x >>= e)) := by
  refine perform_map (fun _ => rfl) rfl ?_
  cases x with
  | error k => rfl
  | ok a => exact he a

/-- No instruction reads the trace. -/
theorem exec_rebaseOut {i : Instr} {s : State} {o : List Byte} {n : Nat}
    (h : n ≤ s.out.length) :
    exec i (s.rebaseOut o n) = mapNext (State.rebaseOut o n) (exec i s) := by
  cases i with
  | out r =>
    have he := (State.rebaseOut_emit (o := o) h (s.reg r.toNat)).symm
    exact perform_map (f := State.rebaseOut o n) (fun _ => rfl) rfl
      (congrArg (fun u => Except.ok (u.setPc (npcOf (.out r) s))) he)
  | push r | pop r | call a | ldIdx r b | stIdx r b | div d r =>
    exact perform_bind_rebaseOut fun _ => rfl
  | ret =>
    rw [exec_ret, exec_ret]
    exact perform_bind_rebaseOut fun _ => rfl
  | halt =>
    rw [exec_halt, exec_halt]
    exact perform_map (f := State.rebaseOut o n) (fun _ => rfl) rfl rfl
  | _ => exact perform_map (f := State.rebaseOut o n) (fun _ => rfl) rfl rfl

/-- No step reads the trace. -/
theorem step_rebaseOut {s t : State} {o : List Byte} {n : Nat} (hn : n ≤ s.out.length)
    (h : step s = .next t) : step (s.rebaseOut o n) = .next (t.rebaseOut o n) := by
  have hr := running_of_step_next h
  rcases fetch_cases s with ⟨-, hf⟩ | ⟨-, -, hf⟩ | ⟨m, -, -, hf⟩
  · rw [step_of_fetch_error hr hf] at h
    cases h
    exact step_of_fetch_error hr hf
  · rw [step_of_fetch_unknown hr hf] at h
    cases h
    exact step_of_fetch_unknown hr hf
  · rw [step_of_fetch_instr hr hf] at h
    rw [step_of_fetch_instr (s := s.rebaseOut o n) hr hf, exec_rebaseOut hn, h]
    rfl

/-- R132: an Out that completes appends its register's byte. -/
theorem out_of_completed_out {s t : State} (h : step s = .next t) (hb : s.byteAt s.pc = 0x03)
    (hr : t.run = .running) : t.out = s.out ++ [s.reg (s.byteAt (s.pc + 1)).toNat] := by
  rcases step_cases h with ⟨k, rfl⟩ | ⟨m, hm, -, he⟩
  · cases hr
  · obtain rfl : m = .out := byte_injective ((byte_of_decodeByte hm).trans hb)
    cases exec_effect he with
    | raise i k => cases hr
    | reg hd v => cases hd
    | store hea hlt v => cases hea
    | out r => rfl

/-- R204: any other byte appends nothing. -/
theorem out_of_byte_ne {s t : State} (h : step s = .next t) (hb : s.byteAt s.pc ≠ 0x03) :
    t.out = s.out := by
  rcases step_effect h with ⟨k, rfl⟩ | ⟨i, hi, -, he⟩
  · rfl
  · exact he.out_eq (opcode_ne_of_byte_ne hi hb)

/-- R192, R194: a step that ends the run appends nothing. -/
theorem out_of_terminal {s t : State} (h : step s = .next t) (ht : t.isTerminal = true) :
    t.out = s.out := by
  obtain ⟨herr, hhalt⟩ := errorsChangeNothingElse s t h
  rcases State.run_cases_of_terminal ht with hr | ⟨k, hr⟩
  · obtain ⟨-, ht⟩ := hhalt hr
    rw [ht]
  · rw [herr k hr]

/-- R132, R204: what a step appends. -/
theorem step_appends {s t : State} (h : step s = .next t) :
    ∃ e, t.out = s.out ++ e ∧
      (e = [] ∨ (s.byteAt s.pc = 0x03 ∧ t.run = .running ∧
        e = [s.reg (s.byteAt (s.pc + 1)).toNat])) ∧
      (s.byteAt s.pc = 0x03 → t.run = .running → e ≠ []) := by
  by_cases hout : s.byteAt s.pc = 0x03 ∧ t.run = .running
  · obtain ⟨hb, hr⟩ := hout
    exact ⟨_, out_of_completed_out h hb hr, .inr ⟨hb, hr, rfl⟩, fun _ _ => List.cons_ne_nil _ _⟩
  · have hkept : t.out = s.out := by
      by_cases hb : s.byteAt s.pc = 0x03
      · exact out_of_terminal h (t.isTerminal_iff.2 fun hr => hout ⟨hb, hr⟩)
      · exact out_of_byte_ne h hb
    exact ⟨[], by rw [hkept, List.append_nil], .inl rfl, fun hb hr => absurd ⟨hb, hr⟩ hout⟩

/-- Settles O47: what the step appends, it appends to any trace. -/
theorem outputIsAppendedByOutAlone : Obligations.OutputIsAppendedByOutAlone := by
  refine ⟨fun c image s h => ?_, fun s t h => ?_⟩
  · obtain ⟨-, rfl⟩ := State.construct_eq_some h
    rfl
  · obtain ⟨e, hout, happended, hout'⟩ := step_appends h
    refine ⟨e, hout, happended, hout', fun o => ?_⟩
    have hs := step_rebaseOut (o := o) (Nat.le_refl _) h
    rw [State.rebaseOut_length] at hs
    rw [hs, State.rebaseOut, hout, List.drop_left]

end Sys2Proof.Machine
end

section
/-! SUPPORT. Operands and mnemonics (R106, R112): what each operand resolves to, and that letter
case is folded away. -/

namespace Sys2Proof.Assembler

/-- R112: a value past a byte. -/
theorem fitByte_of_gt {n v : Nat} (h : 255 < v) : fitByte n v = .error (.operandOverflow n) :=
  if_pos h

/-- R112: a value of a byte. -/
theorem fitByte_of_le {n v : Nat} (h : v ≤ 255) : ∃ b : Byte, fitByte n v = .ok b ∧ b.toNat = v :=
  ⟨_, if_neg (Nat.not_lt.2 h), Nat.mod_eq_of_lt (Nat.lt_succ_of_le h)⟩

/-- R112: a name no label defines. -/
theorem resolve_undefined {labels : Labels} {name : Text} (n : Nat)
    (h : labelOffset labels name = none) :
    resolve labels n .addr (.ident name) = .error (.unresolvedLabel name n) := by
  simp [resolve, h]

/-- R112: a defined label resolves as its offset does. -/
theorem resolve_label {labels : Labels} {name : Text} {v : Nat} (n : Nat)
    (h : labelOffset labels name = some v) :
    resolve labels n .addr (.ident name) = fitByte n v := by
  simp [resolve, h]

/-- Settles O58: the two tests on a name, then the range of the value. -/
theorem operandResolution : Obligations.OperandResolution := by
  intro labels n kind
  refine ⟨rfl, fun name hk => if_neg hk, fun name => resolve_undefined n, fun name v h hv => ?_,
    fun name v h hv => ?_, fun v => fitByte_of_gt, fun v => fitByte_of_le⟩
  · rw [resolve_label n h, fitByte_of_gt hv]
  · rw [resolve_label n h]
    exact fitByte_of_le hv

/-- R106: case folding forgets the upper case. -/
@[simp] theorem foldCase_map_toUpper (t : Text) : foldCase (t.map Char.toUpper) = foldCase t := by
  simp [foldCase]

/-- R106: case folding does nothing to the lower case. -/
@[simp] theorem foldCase_map_toLower (t : Text) : foldCase (t.map Char.toLower) = foldCase t := by
  simp [foldCase]

/-- R106: a mnemonic token is looked up by its folded form alone. -/
theorem lookupMnemonic_congr {t t' : Text} (h : foldCase t = foldCase t') :
    lookupMnemonic t = lookupMnemonic t' := by
  rw [lookupMnemonic, lookupMnemonic, h]

/-- Settles O60: the table's names by evaluation, since no two fold alike. -/
theorem mnemonicsIgnoreCase : Obligations.MnemonicsIgnoreCase := by
  refine ⟨fun m => ?_, fun token => ⟨?_, ?_⟩⟩
  · cases m <;> decide
  · exact lookupMnemonic_congr (foldCase_map_toUpper token)
  · exact lookupMnemonic_congr (foldCase_map_toLower token)

/-- Settles O59, by running the assembler on the eight sources. -/
theorem assemblerExamples : Obligations.AssemblerExamples := by
  unfold Obligations.AssemblerExamples
  decide

end Sys2Proof.Assembler
end

section
/-! SUPPORT. What the assembler emits (R111): each instruction line one instruction, so pass 2
accepts exactly the lines that give instructions, whatever their numbers. -/

namespace Sys2Proof.Assembler

/-- A program assembles to what pass 2 emits with pass 1's labels. -/
theorem assembleLines_ok_iff {ls : List Line} {bytes : List Byte} :
    assembleLines ls = .ok bytes ↔
      ∃ size labels, pass1 1 0 [] ls = .ok (size, labels) ∧ pass2 labels 1 ls = .ok bytes := by
  refine ⟨assembleLines_ok, ?_⟩
  rintro ⟨size, labels, h1, h2⟩
  rw [assembleLines, h1]
  exact h2

/-- A line's operands that resolve on one line resolve alike on any. -/
theorem resolveAll_ok_line {labels : Labels} {n n' : Nat} {ops : List (OperandKind × Operand)}
    {vs : List Byte} (h : resolveAll labels n ops = .ok vs) :
    resolveAll labels n' ops = .ok vs := by
  rw [resolveAll_ok_iff] at h ⊢
  rw [← h]
  refine List.map_congr_left fun o ho => ?_
  have hmem := List.mem_map_of_mem (f := fun o => resolve labels n o.1 o.2) ho
  rw [h] at hmem
  obtain ⟨b, -, hb⟩ := List.mem_map.1 hmem
  rw [← hb]
  exact resolve_ok_line hb.symm

/-- R111: when an instruction line emits bytes. -/
theorem emitLine_ok_iff {labels : Labels} {n : Nat} {mnemonic operands : Text}
    {bytes : List Byte} :
    emitLine labels n mnemonic operands = .ok bytes ↔
      ∃ m vals, lookupMnemonic mnemonic = some m ∧ (operandList operands).length = m.arity ∧
        resolveAll labels n (m.kinds.zip (operandList operands)) = .ok vals ∧
        bytes = m.byte :: vals := by
  unfold emitLine
  constructor
  · intro h
    split at h
    · cases h
    next m hm =>
    dsimp only at h
    split at h
    · cases h
    next hlen =>
    cases hr : resolveAll labels n (m.kinds.zip (operandList operands)) with
    | error e =>
      rw [hr] at h
      cases h
    | ok vals =>
      rw [hr] at h
      cases h
      exact ⟨m, vals, hm, not_not.1 hlen, hr, rfl⟩
  · rintro ⟨m, vals, hm, hlen, hr, rfl⟩
    simp only [hm, hlen, ne_eq, not_true_eq_false, if_false, hr]
    rfl

/-- R80: there is an instruction for an opcode and as many operand bytes as its arity. -/
theorem exists_instr {m : Opcode} {vals : List Byte} (h : vals.length = m.arity) :
    ∃ i : Instr, i.opcode = m ∧ i.operandBytes = vals :=
  ⟨m.build fun k => vals.getD (k - 1) 0, opcode_build m _, by
    rw [operandBytes_build_getD h.ge, List.take_of_length_le h.le]⟩

/-- R111, R112: an instruction line emits the encoding of the instruction it gives. -/
theorem emitLine_ok_iff_lineGives {labels : Labels} {n : Nat} {mnemonic operands : Text}
    {bytes : List Byte} :
    emitLine labels n mnemonic operands = .ok bytes ↔
      ∃ i, LineGives labels i (mnemonic, operands) ∧ bytes = encode i := by
  rw [emitLine_ok_iff]
  constructor
  · rintro ⟨m, vals, hm, hlen, hr, rfl⟩
    have hvals : vals.length = m.arity := by
      rw [resolveAll_length hr, List.length_zip, hlen]
      exact Nat.min_self _
    obtain ⟨i, rfl, rfl⟩ := exists_instr hvals
    exact ⟨i, ⟨hm, hlen, fun n' => resolveAll_ok_iff.1 (resolveAll_ok_line hr)⟩, rfl⟩
  · rintro ⟨i, ⟨hm, hlen, hr⟩, rfl⟩
    exact ⟨_, _, hm, hlen, resolveAll_ok_iff.2 (hr n), rfl⟩

/-- R111: pass 2 at an instruction line. -/
theorem pass2_instr_ok_iff {labels : Labels} {n : Nat} {mnemonic operands : Text}
    {ls : List Line} {bytes : List Byte} :
    pass2 labels n (.instr mnemonic operands :: ls) = .ok bytes ↔
      ∃ front back, emitLine labels n mnemonic operands = .ok front ∧
        pass2 labels (n + 1) ls = .ok back ∧ bytes = front ++ back := by
  rw [pass2]
  cases emitLine labels n mnemonic operands with
  | error e => simp [bind, Except.bind]
  | ok front =>
    cases pass2 labels (n + 1) ls with
    | error e => simp [bind, Except.bind]
    | ok back => simp [bind, Except.bind, pure, Except.pure, eq_comm]

/-- R111: pass 2 emits the encodings of the instructions that the instruction lines give. -/
theorem pass2_ok_iff {labels : Labels} {n : Nat} {ls : List Line} {bytes : List Byte} :
    pass2 labels n ls = .ok bytes ↔
      ∃ instrs, bytes = instrs.flatMap encode ∧
        List.Forall₂ (LineGives labels) instrs (ls.filterMap instrLine) := by
  induction ls generalizing n bytes with
  | nil => simp [pass2, eq_comm]
  | cons l ls ih =>
    cases l with
    | blank | label name => exact ih
    | instr mnemonic operands =>
      simp only [pass2_instr_ok_iff, emitLine_ok_iff_lineGives, ih, List.filterMap_cons, instrLine,
        List.forall₂_cons_right_iff]
      constructor
      · rintro ⟨_, _, ⟨i, hi, rfl⟩, ⟨instrs, rfl, hs⟩, rfl⟩
        exact ⟨_, List.flatMap_cons.symm, i, instrs, hi, hs, rfl⟩
      · rintro ⟨_, rfl, i, instrs, hi, hs, rfl⟩
        exact ⟨_, _, ⟨i, hi, rfl⟩, ⟨instrs, rfl, hs⟩, List.flatMap_cons⟩

/-- Settles O54: pass 1's labels, and what pass 2 emits with them. -/
theorem assemblerEmitsInstructions : Obligations.AssemblerEmitsInstructions := by
  intro source bytes
  simp only [assemble, assembleLines_ok_iff, pass2_ok_iff, exists_and_left]

end Sys2Proof.Assembler
end

section
/-! SUPPORT. Comments and blank lines (R102): a comment is cut off before a line is classified, and
a blank line only moves line numbers, which show only in an error. -/

namespace Sys2Proof.Assembler

/-- R102: the comment and what stands before it. -/
theorem stripComment_append (line comment : Text) :
    stripComment (line ++ ';' :: comment) = stripComment line := by
  induction line with
  | nil => rfl
  | cons c line ih =>
    simp only [stripComment, List.cons_append, List.takeWhile_cons] at ih ⊢
    rw [ih]

/-- The lines that are not blank. -/
def dropBlank (ls : List Line) : List Line := ls.filter (· ≠ .blank)

theorem dropBlank_insert (before after : List Line) :
    dropBlank (before ++ .blank :: after) = dropBlank (before ++ after) := by
  simp [dropBlank]

/-- No instruction line is blank. -/
theorem filterMap_dropBlank (ls : List Line) :
    (dropBlank ls).filterMap instrLine = ls.filterMap instrLine := by
  induction ls with
  | nil => rfl
  | cons l ls ih =>
    cases l with
    | blank | label name => exact ih
    | instr mnemonic operands => exact congrArg ((mnemonic, operands) :: ·) ih

/-- R109: pass 1 accepts the same with the blank lines gone, whatever the line numbers. -/
theorem pass1_dropBlank_ok_iff {ls : List Line} {n n' offset : Nat} {labels : Labels}
    {r : Nat × Labels} :
    pass1 n offset labels ls = .ok r ↔ pass1 n' offset labels (dropBlank ls) = .ok r := by
  induction ls generalizing n n' offset labels with
  | nil => rfl
  | cons l ls ih =>
    cases l with
    | blank => exact ih
    | label name =>
      change _ ↔ pass1 n' offset labels (.label name :: dropBlank ls) = _
      rw [pass1, pass1]
      split
      · simp
      · exact ih
    | instr mnemonic operands =>
      change _ ↔ pass1 n' offset labels (.instr mnemonic operands :: dropBlank ls) = _
      rw [pass1, pass1]
      split
      · simp
      · exact ih

/-- R111: pass 2 emits the same with the blank lines gone, whatever the line numbers. -/
theorem pass2_dropBlank_ok_iff {ls : List Line} {n n' : Nat} {labels : Labels}
    {bytes : List Byte} :
    pass2 labels n ls = .ok bytes ↔ pass2 labels n' (dropBlank ls) = .ok bytes := by
  rw [pass2_ok_iff, pass2_ok_iff, filterMap_dropBlank]

/-- R102: an assembled program is that of its lines that are not blank. -/
theorem assembleLines_dropBlank_ok_iff {ls : List Line} {bytes : List Byte} :
    assembleLines ls = .ok bytes ↔ assembleLines (dropBlank ls) = .ok bytes := by
  rw [assembleLines_ok_iff, assembleLines_ok_iff]
  exact exists₂_congr fun _ _ => and_congr pass1_dropBlank_ok_iff pass2_dropBlank_ok_iff

/-- Settles O56: a comment is not classified, and the two programs have the same lines that are not
blank. -/
theorem commentsAndBlankLinesEmitNothing : Obligations.CommentsAndBlankLinesEmitNothing := by
  refine ⟨fun line comment => ?_, fun before after bytes => ?_⟩
  · rw [classify, classify, stripComment_append]
  · rw [assembleLines_dropBlank_ok_iff, dropBlank_insert, ← assembleLines_dropBlank_ok_iff]

end Sys2Proof.Assembler
end

section
/-! SUPPORT. Unresolved labels (R113): pass 1 reports none, so one is reported only once pass 1 has
accepted every line, and pass 2 reports it of a name that no line defined. -/

namespace Sys2Proof.Assembler

/-- A computation fails in its first part or in the rest. -/
theorem bind_error_cases {ε α β : Type} {x : Except ε α} {f : α → Except ε β} {e : ε}
    (h : (x >>= f) = .error e) : x = .error e ∨ ∃ a, f a = .error e := by
  cases x with
  | error e' =>
    cases h
    exact .inl rfl
  | ok a => exact .inr ⟨a, h⟩

/-- R113, R115: no error of pass 1 is an unresolved label. -/
theorem pass1_error {ls : List Line} {n offset : Nat} {labels : Labels} {e : AsmError}
    (h : pass1 n offset labels ls = .error e) : ∃ line reason, e = .syntaxError line reason := by
  induction ls generalizing n offset labels with
  | nil => cases h
  | cons l ls ih =>
    cases l with
    | blank => exact ih h
    | label name =>
      rw [pass1] at h
      split at h
      · cases h
        exact ⟨_, _, rfl⟩
      · exact ih h
    | instr mnemonic operands =>
      rw [pass1] at h
      split at h
      · cases h
        exact ⟨_, _, rfl⟩
      · exact ih h

section
variable {labels : Labels} {n k : Nat} {name : Text}

theorem fitByte_ne_unresolvedLabel {v : Nat} : fitByte n v ≠ .error (.unresolvedLabel name k) := by
  unfold fitByte
  split <;> nofun

/-- R112: only the name of no label is unresolved. -/
theorem resolve_unresolvedLabel {kind : OperandKind} {t : Operand}
    (h : resolve labels n kind t = .error (.unresolvedLabel name k)) :
    labelOffset labels name = none := by
  cases t with
  | malformed => cases h
  | literal v => exact absurd h fitByte_ne_unresolvedLabel
  | ident name' =>
    rw [resolve] at h
    split at h
    · split at h
      · next hnone =>
        cases h
        exact hnone
      · exact absurd h fitByte_ne_unresolvedLabel
    · cases h

theorem resolveAll_unresolvedLabel {ops : List (OperandKind × Operand)}
    (h : resolveAll labels n ops = .error (.unresolvedLabel name k)) :
    labelOffset labels name = none := by
  induction ops with
  | nil => cases h
  | cons o ops ih =>
    rcases bind_error_cases h with hv | ⟨v, h⟩
    · exact resolve_unresolvedLabel hv
    rcases bind_error_cases h with hr | ⟨vs, h⟩
    · exact ih hr
    · cases h

theorem emitLine_unresolvedLabel {mnemonic operands : Text}
    (h : emitLine labels n mnemonic operands = .error (.unresolvedLabel name k)) :
    labelOffset labels name = none := by
  unfold emitLine at h
  split at h
  · cases h
  next m hm =>
  dsimp only at h
  split at h
  · cases h
  rcases bind_error_cases h with hr | ⟨vals, h⟩
  · exact resolveAll_unresolvedLabel hr
  · cases h

/-- R113: pass 2 reports an unresolved label only of a name no label has. -/
theorem pass2_unresolvedLabel {ls : List Line}
    (h : pass2 labels n ls = .error (.unresolvedLabel name k)) :
    labelOffset labels name = none := by
  induction ls generalizing n with
  | nil => cases h
  | cons l ls ih =>
    cases l with
    | blank | label other => exact ih h
    | instr mnemonic operands =>
      rcases bind_error_cases h with he | ⟨front, h⟩
      · exact emitLine_unresolvedLabel he
      rcases bind_error_cases h with hp | ⟨back, h⟩
      · exact ih hp
      · cases h

end

/-! What pass 1 accepted. -/

section
variable {ls : List Line} {n offset : Nat} {labels : Labels} {r : Nat × Labels}

/-- R109: every instruction line of a program that pass 1 accepts names an instruction. -/
theorem pass1_instr {mnemonic operands : Text} (h : pass1 n offset labels ls = .ok r)
    (hmem : Line.instr mnemonic operands ∈ ls) : ∃ m, lookupMnemonic mnemonic = some m := by
  obtain ⟨before, after, rfl⟩ := List.append_of_mem hmem
  induction before generalizing n offset labels with
  | nil =>
    rw [List.nil_append, pass1] at h
    split at h
    · cases h
    · next m hm => exact ⟨m, hm⟩
  | cons l before ih =>
    obtain ⟨new, h', -⟩ := pass1_cons_ok h
    exact ih h' (by simp)

/-- R109: pass 1 accepts no second definition of a label. -/
theorem pass1_not_mem_of_labelOffset {name : Text} {v : Nat}
    (h : pass1 n offset labels ls = .ok r) (hv : labelOffset labels name = some v) :
    Line.label name ∉ ls := by
  induction ls generalizing n offset labels with
  | nil => exact List.not_mem_nil
  | cons l ls ih =>
    obtain ⟨new, h', hnew⟩ := pass1_cons_ok h
    refine List.not_mem_cons_of_ne_of_not_mem ?_ (ih h' (by rw [labelOffset_append, hv]; rfl))
    rintro rfl
    obtain ⟨hnone, -⟩ := hnew name rfl
    cases hnone.symm.trans hv

/-- R109: after a label's definition none follows. -/
theorem pass1_label_not_mem_after {before after : List Line} {name : Text}
    (h : pass1 n offset labels (before ++ .label name :: after) = .ok r) :
    Line.label name ∉ after := by
  induction before generalizing n offset labels with
  | nil =>
    obtain ⟨new, h', hnew⟩ := pass1_cons_ok h
    obtain ⟨hnone, rfl⟩ := hnew name rfl
    refine pass1_not_mem_of_labelOffset h' (v := offset) ?_
    rw [labelOffset_append, hnone, labelOffset_singleton]
    rfl
  | cons l before ih =>
    obtain ⟨new, h', -⟩ := pass1_cons_ok h
    exact ih h'

/-- R109: a line that defines a label gives it an offset. -/
theorem pass1_label_not_mem {name : Text} (h : pass1 n offset labels ls = .ok r)
    (hnone : labelOffset r.2 name = none) : Line.label name ∉ ls := by
  intro hmem
  obtain ⟨before, after, rfl⟩ := List.append_of_mem hmem
  cases hnone.symm.trans (pass1_label h)

end

/-- Settles O57: pass 1 accepted the program, and its labels hold every name a line defines. -/
theorem unresolvedLabelIsUndefined : Obligations.UnresolvedLabelIsUndefined := by
  intro ls name n h
  rw [assembleLines] at h
  cases h1 : pass1 1 0 [] ls with
  | error e =>
    rw [h1] at h
    cases h
    obtain ⟨line, reason, he⟩ := pass1_error h1
    cases he
  | ok r =>
    rw [h1] at h
    refine ⟨pass1_label_not_mem h1 (pass2_unresolvedLabel h), fun _ _ => pass1_instr h1, ?_⟩
    rintro before other after rfl
    exact pass1_label_not_mem_after h1

end Sys2Proof.Assembler
end
